-- ==== Sys2Proof/Word.lean ====
section
/-! DEFINITION. The machine's word (00_scope.md R5) and the widths of its fields (30_encoding.md R61). -/

namespace Sys2Proof

/-- A register, a data-memory cell, an instruction word, the pc and an ALU result are 32 bits wide (R5). -/
abbrev Word := BitVec 32

/-- One byte of a program image (R44). -/
abbrev Byte := BitVec 8

/-- A register number: a 5-bit index, every value of which names a register (R6, R62). -/
abbrev Reg := BitVec 5

/-- The 16-bit immediate or offset field (R61). -/
abbrev Imm16 := BitVec 16

/-- The 26-bit jump index (R61). -/
abbrev Imm26 := BitVec 26

/-- SENTINEL, the reserved program-counter value that ends a run (R7). -/
def sentinel : Word := 0xFFFFFFFF#32

/-- The link register, x[31] (R22). -/
def linkReg : Reg := 31#5

end Sys2Proof
end

