-- ==== Sys2Proof/Syntax.lean ====
section
/-! DEFINITION. The instructions: one constructor per row of opcode_table.json, in the table's order (30_encoding.md R64, R65).

Each constructor holds every field of its word but the opcode and, for opcode 0, the func code, from the high bits down. The
fields an instruction does not read (R67) are held too, under the name `ign`, so that a decoded instruction loses no bit of
its word; no meaning reads one, but for jalr's fault record, which holds the whole word (R205). DESIGN CHOICE (log 19, safe). -/

namespace Sys2Proof

inductive Instr
  -- 41_register_alu.md; `ign` is the shamt field
  | add   (rs rt rd ign : Reg)
  | addu  (rs rt rd ign : Reg)
  | sub   (rs rt rd ign : Reg)
  | subu  (rs rt rd ign : Reg)
  | and   (rs rt rd ign : Reg)
  | or    (rs rt rd ign : Reg)
  | nor   (rs rt rd ign : Reg)
  | slt   (rs rt rd ign : Reg)
  | sltu  (rs rt rd ign : Reg)
  -- `ign` is the rs field
  | sll   (ign rt rd shamt : Reg)
  | srl   (ign rt rd shamt : Reg)
  -- 44_control_transfer.md; `ign` is the rt, rd and shamt fields
  | jr    (rs : Reg) (ign : BitVec 15)
  | jalr  (rs : Reg) (ign : BitVec 15)
  -- 42_immediate_alu.md
  | addi  (rs rt : Reg) (imm : Imm16)
  | addiu (rs rt : Reg) (imm : Imm16)
  | andi  (rs rt : Reg) (imm : Imm16)
  | ori   (rs rt : Reg) (imm : Imm16)
  -- `ign` is the rs field
  | lui   (ign rt : Reg) (imm : Imm16)
  | slti  (rs rt : Reg) (imm : Imm16)
  | sltiu (rs rt : Reg) (imm : Imm16)
  -- 43_load_store.md
  | lw    (rs rt : Reg) (imm : Imm16)
  | sw    (rs rt : Reg) (imm : Imm16)
  -- 44_control_transfer.md
  | beq   (rs rt : Reg) (imm : Imm16)
  | bne   (rs rt : Reg) (imm : Imm16)
  | j     (index : Imm26)
  | jal   (index : Imm26)
  deriving DecidableEq, Repr

/-- The resolver's answers: the 26 mnemonics and Invalid (40_datapath.md R83). -/
inductive Mnemonic
  | add | addu | sub | subu | and | or | nor | slt | sltu | sll | srl | jr | jalr
  | addi | addiu | andi | ori | lui | slti | sltiu | lw | sw | beq | bne | j | jal
  | invalid
  deriving DecidableEq, Repr

/-- The mnemonic of an instruction. -/
def Instr.mnemonic : Instr → Mnemonic
  | .add .. => .add
  | .addu .. => .addu
  | .sub .. => .sub
  | .subu .. => .subu
  | .and .. => .and
  | .or .. => .or
  | .nor .. => .nor
  | .slt .. => .slt
  | .sltu .. => .sltu
  | .sll .. => .sll
  | .srl .. => .srl
  | .jr .. => .jr
  | .jalr .. => .jalr
  | .addi .. => .addi
  | .addiu .. => .addiu
  | .andi .. => .andi
  | .ori .. => .ori
  | .lui .. => .lui
  | .slti .. => .slti
  | .sltiu .. => .sltiu
  | .lw .. => .lw
  | .sw .. => .sw
  | .beq .. => .beq
  | .bne .. => .bne
  | .j .. => .j
  | .jal .. => .jal

end Sys2Proof
end

