-- ==== Sys2Proof/Decode.lean ====
section
/-! DEFINITION. The decoder (30_encoding.md R60 to R67), total on every word, and the encoder written from the same tables. -/

namespace Sys2Proof

/-! ### The fields of a word (R61) -/

def opcodeOf (w : Word) : BitVec 6 := w.extractLsb' 26 6
def rsOf (w : Word) : Reg := w.extractLsb' 21 5
def rtOf (w : Word) : Reg := w.extractLsb' 16 5
def rdOf (w : Word) : Reg := w.extractLsb' 11 5
def shamtOf (w : Word) : Reg := w.extractLsb' 6 5
def funcOf (w : Word) : BitVec 6 := w.extractLsb' 0 6
def imm16Of (w : Word) : Imm16 := w.extractLsb' 0 16
def imm26Of (w : Word) : Imm26 := w.extractLsb' 0 26

/-- The rt, rd and shamt fields together, which jr and jalr ignore (R174, R175). -/
def ignoredOf (w : Word) : BitVec 15 := w.extractLsb' 6 15

/-- Why a word is none of the 26 instructions; the resolver answers Invalid for it (R66). -/
inductive DecodeReject
  /-- opcode 0 with a func code outside R64's table -/
  | unmatchedFunc (func : BitVec 6)
  /-- a non-zero opcode outside R65's table -/
  | unmatchedOpcode (opcode : BitVec 6)
  /-- not exactly the four bytes of one record (R44) -/
  | partialRecord
  deriving DecidableEq, Repr

/-- Opcode 0, dispatched by func (R64). -/
def decodeFunc (w : Word) : Except DecodeReject Instr :=
  match funcOf w with
  | 0x00#6 => .ok (.sll (rsOf w) (rtOf w) (rdOf w) (shamtOf w))
  | 0x02#6 => .ok (.srl (rsOf w) (rtOf w) (rdOf w) (shamtOf w))
  | 0x08#6 => .ok (.jr (rsOf w) (ignoredOf w))
  | 0x09#6 => .ok (.jalr (rsOf w) (ignoredOf w))
  | 0x20#6 => .ok (.add (rsOf w) (rtOf w) (rdOf w) (shamtOf w))
  | 0x21#6 => .ok (.addu (rsOf w) (rtOf w) (rdOf w) (shamtOf w))
  | 0x22#6 => .ok (.sub (rsOf w) (rtOf w) (rdOf w) (shamtOf w))
  | 0x23#6 => .ok (.subu (rsOf w) (rtOf w) (rdOf w) (shamtOf w))
  | 0x24#6 => .ok (.and (rsOf w) (rtOf w) (rdOf w) (shamtOf w))
  | 0x25#6 => .ok (.or (rsOf w) (rtOf w) (rdOf w) (shamtOf w))
  | 0x27#6 => .ok (.nor (rsOf w) (rtOf w) (rdOf w) (shamtOf w))
  | 0x2A#6 => .ok (.slt (rsOf w) (rtOf w) (rdOf w) (shamtOf w))
  | 0x2B#6 => .ok (.sltu (rsOf w) (rtOf w) (rdOf w) (shamtOf w))
  | f => .error (.unmatchedFunc f)

/-- The instruction a word stands for, or why it stands for none (R64 to R67). Only the opcode and, for opcode 0, the func
code decide (R67). -/
def decode (w : Word) : Except DecodeReject Instr :=
  match opcodeOf w with
  | 0x00#6 => decodeFunc w
  | 0x02#6 => .ok (.j (imm26Of w))
  | 0x03#6 => .ok (.jal (imm26Of w))
  | 0x04#6 => .ok (.beq (rsOf w) (rtOf w) (imm16Of w))
  | 0x05#6 => .ok (.bne (rsOf w) (rtOf w) (imm16Of w))
  | 0x08#6 => .ok (.addi (rsOf w) (rtOf w) (imm16Of w))
  | 0x09#6 => .ok (.addiu (rsOf w) (rtOf w) (imm16Of w))
  | 0x0A#6 => .ok (.slti (rsOf w) (rtOf w) (imm16Of w))
  | 0x0B#6 => .ok (.sltiu (rsOf w) (rtOf w) (imm16Of w))
  | 0x0C#6 => .ok (.andi (rsOf w) (rtOf w) (imm16Of w))
  | 0x0D#6 => .ok (.ori (rsOf w) (rtOf w) (imm16Of w))
  | 0x0F#6 => .ok (.lui (rsOf w) (rtOf w) (imm16Of w))
  | 0x23#6 => .ok (.lw (rsOf w) (rtOf w) (imm16Of w))
  | 0x2B#6 => .ok (.sw (rsOf w) (rtOf w) (imm16Of w))
  | op => .error (.unmatchedOpcode op)

/-! ### Encoding -/

/-- The R-format word (R61). -/
def encodeR (func : BitVec 6) (rs rt rd shamt : Reg) : Word := 0x00#6 ++ rs ++ rt ++ rd ++ shamt ++ func

/-- The word of jr and jalr, their ignored fields together. -/
def encodeJumpReg (func : BitVec 6) (rs : Reg) (ign : BitVec 15) : Word := 0x00#6 ++ rs ++ ign ++ func

/-- The I-format word (R61). -/
def encodeI (opcode : BitVec 6) (rs rt : Reg) (imm : Imm16) : Word := opcode ++ rs ++ rt ++ imm

/-- The J-format word (R61). -/
def encodeJ (opcode : BitVec 6) (index : Imm26) : Word := opcode ++ index

/-- The word of an instruction (R61, R64, R65). -/
def encode : Instr → Word
  | .add rs rt rd ign => encodeR 0x20#6 rs rt rd ign
  | .addu rs rt rd ign => encodeR 0x21#6 rs rt rd ign
  | .sub rs rt rd ign => encodeR 0x22#6 rs rt rd ign
  | .subu rs rt rd ign => encodeR 0x23#6 rs rt rd ign
  | .and rs rt rd ign => encodeR 0x24#6 rs rt rd ign
  | .or rs rt rd ign => encodeR 0x25#6 rs rt rd ign
  | .nor rs rt rd ign => encodeR 0x27#6 rs rt rd ign
  | .slt rs rt rd ign => encodeR 0x2A#6 rs rt rd ign
  | .sltu rs rt rd ign => encodeR 0x2B#6 rs rt rd ign
  | .sll ign rt rd shamt => encodeR 0x00#6 ign rt rd shamt
  | .srl ign rt rd shamt => encodeR 0x02#6 ign rt rd shamt
  | .jr rs ign => encodeJumpReg 0x08#6 rs ign
  | .jalr rs ign => encodeJumpReg 0x09#6 rs ign
  | .addi rs rt imm => encodeI 0x08#6 rs rt imm
  | .addiu rs rt imm => encodeI 0x09#6 rs rt imm
  | .andi rs rt imm => encodeI 0x0C#6 rs rt imm
  | .ori rs rt imm => encodeI 0x0D#6 rs rt imm
  | .lui ign rt imm => encodeI 0x0F#6 ign rt imm
  | .slti rs rt imm => encodeI 0x0A#6 rs rt imm
  | .sltiu rs rt imm => encodeI 0x0B#6 rs rt imm
  | .lw rs rt imm => encodeI 0x23#6 rs rt imm
  | .sw rs rt imm => encodeI 0x2B#6 rs rt imm
  | .beq rs rt imm => encodeI 0x04#6 rs rt imm
  | .bne rs rt imm => encodeI 0x05#6 rs rt imm
  | .j index => encodeJ 0x02#6 index
  | .jal index => encodeJ 0x03#6 index

/-! ### Bytes of the image -/

/-- One record's word, `b0<<24 | b1<<16 | b2<<8 | b3`, b0 the record's first byte (R44, C9). -/
def wordOfBytes (b0 b1 b2 b3 : Byte) : Word := b0 ++ b1 ++ b2 ++ b3

/-- Decoding the bytes of one record of the image. -/
def decodeRecord : List Byte → Except DecodeReject Instr
  | [b0, b1, b2, b3] => decode (wordOfBytes b0 b1 b2 b3)
  | _ => .error .partialRecord

/-- What `decode` reads from a word given as opcode_table.json numbers its bits; every bit above `nbits` is 0. -/
def decodeTableWord (nbits w : Nat) : Option Instr :=
  match decode (BitVec.ofNat 32 (w % 2 ^ nbits)) with
  | .ok i => some i
  | .error _ => none

end Sys2Proof
end

