-- ==== Sys2Proof/Config.lean ====
section
/-! DEFINITION. The parameters every model of this hardware takes (00_scope.md R8 to R15) and the free values of what the spec
leaves to any value (93_implementation_defined.md rows 14 and 16). -/

namespace Sys2Proof

/-- SRL_KIND: how srl fills the vacated high bits (R12). -/
inductive SrlKind
  | logical
  | arithmetic
  deriving DecidableEq, Repr

/-- SLTIU_IMM_EXT: which extension of imm16 sltiu compares against (R13). -/
inductive ImmExt
  | sext
  | zext
  deriving DecidableEq, Repr

/-- JALR_LINK_READ: what jalr does when its rs field is 31 (R14). -/
inductive JalrLinkRead
  | fault
  | old
  | new
  deriving DecidableEq, Repr

/-- INVALID_POLICY: what an unresolved encoding does (R15). -/
inductive InvalidPolicy
  | nop
  | fault
  deriving DecidableEq, Repr

/-- The parameters of R8 to R15, as plain data. `initRegs` gives x[0] to x[30]; x[31] starts at SENTINEL (R11).
DESIGN CHOICE (log 1, safe): the record travels inside State, and no step changes it. -/
structure Config where
  memWords      : Nat
  imemWords     : Nat
  resetPc       : Word
  initRegs      : Vector Word 31
  srlKind       : SrlKind
  sltiuImmExt   : ImmExt
  jalrLinkRead  : JalrLinkRead
  invalidPolicy : InvalidPolicy
  deriving DecidableEq, Repr

/-- The reference boot of R11 with the spec's defaults of R10 and R12 to R15. The spec gives MEM_WORDS and IMEM_WORDS no
number: DESIGN CHOICE 1024, the bound of 95_test_vectors.md (log 2, unsafe), and 2^30, the largest R9 allows (log 3, unsafe). -/
def Config.reference : Config where
  memWords      := 1024
  imemWords     := 2 ^ 30
  resetPc       := 0x00000000#32
  initRegs      := Vector.replicate 31 0x00000000#32
  srlKind       := .logical
  sltiuImmExt   := .sext
  jalrLinkRead  := .fault
  invalidPolicy := .nop

/-- FREE VALUE (log 11, safe): a statistics counter of a faulted state. `which` numbers the counter, `before` lists the six
counters at the start of the faulting cycle, `pc` is its pc. "Their value in a faulted state is not observable" (R99). -/
opaque Config.counterAfterFault (which : Nat) (before : List Nat) (pc : Word) : Nat

/-- FREE VALUE (log 12, safe): the exit status after a fault of the given code, less one, so that the status itself is
any value other than 0 (R220, 93_implementation_defined.md row 16). -/
opaque Config.faultExitStatusPred (code : Nat) : Nat

end Sys2Proof
end

