-- ==== Sys2Proof/Machine/Flags.lean ====
section
/-! DEFINITION. The hardware has no flags (10_state.md R26). What other machines keep in flags is here: the overflow tests
(40_datapath.md R87), the comparisons as words (00_scope.md R17), and the right shift that a parameter selects (R12). -/

namespace Sys2Proof.Machine

/-- "both operands share a sign and the result's sign differs" (R87). -/
def addOvf (a b r : Word) : Bool := a.msb == b.msb && r.msb != a.msb

/-- The operands' signs differ and the result's sign differs from the first operand's (R87, D15). -/
def subOvf (a b r : Word) : Bool := a.msb != b.msb && r.msb != a.msb

/-- b2w: the word 1 when the condition holds and 0 otherwise (R17). -/
def b2w (c : Bool) : Word := if c then 1#32 else 0#32

/-- 1 when the signed reading of `a` is below that of `b` (R17, D12). -/
def setLtSigned (a b : Word) : Word := b2w (decide (a.toInt < b.toInt))

/-- 1 when the unsigned reading of `a` is below that of `b` (R17, D12). -/
def setLtUnsigned (a b : Word) : Word := b2w (decide (a.toNat < b.toNat))

/-- srl's result: zeros or copies of bit 31 shifted in, by SRL_KIND (R88, D11). -/
def shiftRight (k : SrlKind) (v : Word) (shamt : Reg) : Word :=
  match k with
  | .logical => v >>> shamt.toNat
  | .arithmetic => v.sshiftRight shamt.toNat

/-- sll's result: zeros shifted in (R88). -/
def shiftLeft (v : Word) (shamt : Reg) : Word := v <<< shamt.toNat

end Sys2Proof.Machine
end

