-- ==== Sys2Proof/Machine/Operands.lean ====
section
/-! DEFINITION. The operand forms: the values the decoder derives from a word's fields (30_encoding.md R63) and the effective
address (20_memory.md R42). -/

namespace Sys2Proof.Machine

/-- simm: imm16 sign-extended (R18, R63). -/
def simm (imm : Imm16) : Word := imm.signExtend 32

/-- zimm: imm16 zero-extended (R18, R63). -/
def zimm (imm : Imm16) : Word := imm.zeroExtend 32

/-- boff: the branch offset, simm shifted left by 2 (R63). -/
def boff (imm : Imm16) : Word := simm imm <<< 2

/-- jtarget: the jump target, its top four bits from the fetch pc (R63, C1). -/
def jtarget (pc : Word) (index : Imm26) : Word := (pc &&& 0xF0000000#32) ||| (index.zeroExtend 32 <<< 2)

/-- pc4, the value step 7 gives the pc, modulo 2^32 (R19, R96). -/
def pc4 (pc : Word) : Word := pc + 4#32

/-- The effective address of lw and sw from the base register's value, modulo 2^32 (R42, D8). -/
def effAddr (base : Word) (imm : Imm16) : Word := base + simm imm

end Sys2Proof.Machine
end

