-- ==== Sys2Proof/Machine/State.lean ====
section
/-! DEFINITION. The machine's state (10_state.md R34), the reasons a step stops, and the state after reset. -/

namespace Sys2Proof.Machine

/-- The faults (60_exceptions.md R200), each with the info it records. Every one ends the run before any write of its cycle
(R99, R209). -/
inductive Fault
  /-- Code 1, by add, sub and addi on signed overflow, in step 6 (R201). The source's own fault: exact. -/
  | arithmeticOverflow (pc : Word)
  /-- Code 2, by lw and sw, in step 6, when the data index is out of bounds (R202). The source's own fault; for addresses
  0xFFFFFFFD to 0xFFFFFFFF safe (log 17). -/
  | memoryBounds (index : Int) (pc : Word)
  /-- Code 3, by any fetch at or past PROG_LEN, in step 1 (R203). Safe (log 16). -/
  | fetchOutOfProgram (pc : Word)
  /-- Code 4, by any fetch at a pc that is neither a multiple of 4 nor SENTINEL, in step 1 (R204). Safe (log 15). -/
  | misalignedFetch (pc : Word)
  /-- Code 5, by jalr with rs = 31 when JALR_LINK_READ = FAULT, in step 4 (R205). Safe (log 7). -/
  | unpredictableJalr (pc : Word) (w : Word)
  /-- Code 6, by an Invalid word when INVALID_POLICY = FAULT, in step 4 (R206). Safe (log 7). -/
  | invalidInstruction (pc : Word) (w : Word)
  deriving DecidableEq, Repr

/-- Why a step gives no next state without a fault. -/
inductive Refusal
  /-- Raised by exec's arm for an instruction without a meaning; no arm of this model raises it. Safe. -/
  | notModelled (mnemonic : String)
  /-- Raised by step when pc = SENTINEL and no fault was raised: the run is over, its normal end, and no further step exists
  (R100, R233). Safe (log 8). -/
  | halted
  deriving DecidableEq, Repr

/-- The six statistics counters, natural numbers that never wrap (R31, D27; log 22). -/
structure Statistics where
  cycles : Nat
  rType  : Nat
  iType  : Nat
  jType  : Nat
  branch : Nat
  mem    : Nat
  deriving DecidableEq, Repr

/-- A memory of 32-bit words as (word index, word) pairs. Its canonical form, `Memory.wf` of Ops.lean: indexes strictly
rising, no listed word 0; an unlisted index reads 0 (R29, R47; log 13, log 14). -/
abbrev Memory := List (Nat × Word)

/-- The machine's state (R34) with the parameters it runs under (R8 to R15; log 1). -/
structure State where
  /-- x[0] to x[31] (R20); register 0 is an ordinary register (R21). -/
  x       : Vector Word 32
  /-- The program counter (R24). -/
  pc      : Word
  /-- The data memory DMEM (R29). -/
  dmem    : Memory
  /-- The instruction store IMEM (R30). -/
  imem    : Memory
  /-- PROG_LEN, the number of words loaded (R9, R30). -/
  progLen : Nat
  /-- The statistics counters (R31). -/
  stats   : Statistics
  /-- The fault raised, if any: the run is Faulted exactly when there is one (R33; log 10). -/
  raised  : Option Fault
  /-- The parameters; no step changes them. -/
  cfg     : Config
  deriving DecidableEq, Repr

/-- Every counter 0 (R34, R230). -/
def Statistics.zero : Statistics where
  cycles := 0
  rType  := 0
  iType  := 0
  jType  := 0
  branch := 0
  mem    := 0

/-- The reset values of R34 under the parameters `c`, before the program is loaded (R230): x[0] to x[30] from INIT_REGS,
x[31] SENTINEL, pc RESET_PC, DMEM all 0, the counters 0, status Running. -/
def State.boot (c : Config) : State where
  x       := c.initRegs.push sentinel
  pc      := c.resetPc
  dmem    := []
  imem    := []
  progLen := 0
  stats   := Statistics.zero
  raised  := none
  cfg     := c

/-- The machine right after reset: the reference boot (R11, R34), with no program loaded (log 6). -/
def State.reset : State := State.boot Config.reference

end Sys2Proof.Machine
end

