-- ==== Sys2Proof/Machine/Ops.lean ====
section
/-! DEFINITION. The named operations over registers, memory, pc and counters, the fetch, raising a fault, and the ways an
instruction completes. -/

namespace Sys2Proof.Machine

/-- What a meaning answers. -/
abbrev Result := Host.Outcome State Fault Refusal

/-! ### Registers (R18, R20 to R22) -/

/-- x[i]. -/
def State.reg (s : State) (r : Reg) : Word := s.x[r.toNat]'r.isLt

/-- x[i] <- v; register 0 is written like any other (R21). -/
def State.setReg (s : State) (r : Reg) (v : Word) : State := { s with x := s.x.set r.toNat v r.isLt }

/-! ### Memory (R29, R47) -/

/-- The word at an index; 0 where none is listed (R29, R50). -/
def Memory.read : Memory → Nat → Word
  | [], _ => 0#32
  | (k, v) :: m, i => if k = i then v else Memory.read m i

/-- The memory without the cells of an index. -/
def Memory.erase (m : Memory) (i : Nat) : Memory := m.filter fun c => c.1 != i

/-- A cell put before the first cell of a higher index. -/
def Memory.insert : Memory → Nat → Word → Memory
  | [], i, v => [(i, v)]
  | (k, u) :: m, i, v => if i < k then (i, v) :: (k, u) :: m else (k, u) :: Memory.insert m i v

/-- DMEM[i] <- v. Writing 0, what an unlisted index reads as, removes the cell. -/
def Memory.write (m : Memory) (i : Nat) (v : Word) : Memory :=
  if v = 0#32 then m.erase i else (m.erase i).insert i v

/-- The canonical form: indexes strictly rising, no word 0 listed. Equal canonical memories are equal lists. -/
def Memory.wf (m : Memory) : Bool :=
  decide (m.Pairwise fun c d => c.1 < d.1) && m.all fun c => c.2 != 0#32

/-- Every listed index lies below a bound. -/
def Memory.below (m : Memory) (n : Nat) : Bool := m.all fun c => decide (c.1 < n)

/-- Storing a word at an index of DMEM. -/
def State.store (s : State) (i : Nat) (v : Word) : State := { s with dmem := s.dmem.write i v }

/-! ### The pc and the counters -/

/-- pc <- target. -/
def State.setPc (s : State) (target : Word) : State := { s with pc := target }

/-- The class of an instruction for the statistics (R97). -/
inductive Kind
  | rType
  | iType
  | branch
  | mem
  | jType
  deriving DecidableEq, Repr

/-- The classification of step 3 (R97): beq and bne count as I-type and branch, lw and sw as I-type and memory. -/
def Statistics.classify (st : Statistics) : Kind → Statistics
  | .rType => { st with rType := st.rType + 1 }
  | .iType => { st with iType := st.iType + 1 }
  | .branch => { st with iType := st.iType + 1, branch := st.branch + 1 }
  | .mem => { st with iType := st.iType + 1, mem := st.mem + 1 }
  | .jType => { st with jType := st.jType + 1 }

/-- Step 11: stats.cycles += 1 (R98, R240). -/
def Statistics.tick (st : Statistics) : Statistics := { st with cycles := st.cycles + 1 }

/-- The counters of a completed cycle. -/
def State.retire (s : State) (k : Kind) : State := { s with stats := (s.stats.classify k).tick }

/-! ### Faults (60_exceptions.md) -/

/-- `raise`: the cycle and the run end with the fault, no write of the cycle performed (R18, R99, R209). There is no trap
entry: no state is saved and control goes nowhere (R209). -/
def raise (f : Fault) : Result := .fault f

/-- The spec's label of a fault kind (R200). -/
def Fault.code : Fault → Nat
  | .arithmeticOverflow _ => 1
  | .memoryBounds _ _ => 2
  | .fetchOutOfProgram _ => 3
  | .misalignedFetch _ => 4
  | .unpredictableJalr _ _ => 5
  | .invalidInstruction _ _ => 6

/-- The pc a fault records (R200). -/
def Fault.pc : Fault → Word
  | .arithmeticOverflow pc => pc
  | .memoryBounds _ pc => pc
  | .fetchOutOfProgram pc => pc
  | .misalignedFetch pc => pc
  | .unpredictableJalr pc _ => pc
  | .invalidInstruction pc _ => pc

/-- The counters of a faulted state: free values (R99; log 11). -/
def Statistics.afterFault (st : Statistics) (pc : Word) : Statistics :=
  let before := [st.cycles, st.rType, st.iType, st.jType, st.branch, st.mem]
  { cycles := Config.counterAfterFault 0 before pc
    rType  := Config.counterAfterFault 1 before pc
    iType  := Config.counterAfterFault 2 before pc
    jType  := Config.counterAfterFault 3 before pc
    branch := Config.counterAfterFault 4 before pc
    mem    := Config.counterAfterFault 5 before pc }

/-- `status <- Faulted(kind, info)`, everything else as at the start of the cycle, but for the counters, whose value is
free (R99, R209). -/
def State.recordFault (s : State) (f : Fault) : State :=
  { s with raised := some f, stats := s.stats.afterFault s.pc }

/-- The run status (R33). -/
inductive Status
  | running
  | halted
  | faulted (f : Fault)
  deriving DecidableEq, Repr

/-- Faulted when a fault was raised, else Halted when pc = SENTINEL, else Running (R33, R233). -/
def State.status (s : State) : Status :=
  match s.raised with
  | some f => .faulted f
  | none => if s.pc = sentinel then .halted else .running

/-! ### Checks -/

/-- CheckData: the word index of a data access, or MemoryBoundsFault (R45, R202, D7). The low two bits of `ea` are dropped. -/
def checkData (s : State) (ea : Word) : Except Fault Nat :=
  if ea.msb then .error (.memoryBounds (ea.toInt.tdiv 4) s.pc)
  else if s.cfg.memWords ≤ ea.toNat / 4 then .error (.memoryBounds ((ea.toNat / 4 : Nat) : Int) s.pc)
  else .ok (ea.toNat / 4)

/-- Fetch: the word at pc, or MisalignedFetch, or FetchOutOfProgram, in this order (R41, R81, R208). -/
def fetch (s : State) : Except Fault Word :=
  if s.pc.toNat % 4 ≠ 0 then .error (.misalignedFetch s.pc)
  else if s.progLen ≤ s.pc.toNat / 4 then .error (.fetchOutOfProgram s.pc)
  else .ok (s.imem.read (s.pc.toNat / 4))

/-! ### The ways an instruction completes (steps 7 to 11 of R98) -/

/-- A register is written and the pc advances by 4. -/
def finishReg (k : Kind) (dst : Reg) (r : Word) (s : State) : Result :=
  .next (((s.setReg dst r).setPc (pc4 s.pc)).retire k)

/-- A word of DMEM is written and the pc advances by 4. -/
def finishStore (i : Nat) (v : Word) (s : State) : Result :=
  .next (((s.store i v).setPc (pc4 s.pc)).retire .mem)

/-- Only the pc changes. -/
def finishPc (k : Kind) (target : Word) (s : State) : Result :=
  .next ((s.setPc target).retire k)

/-- x[31] <- pc4, and the pc goes to the target (R95). -/
def finishLink (k : Kind) (target : Word) (s : State) : Result :=
  .next (((s.setReg linkReg (pc4 s.pc)).setPc target).retire k)

end Sys2Proof.Machine
end

