-- ==== Sys2Proof/Machine/ControlTransfer.lean ====
section
/-! DEFINITION. The control transfers (44_control_transfer.md). There is no delay slot and no check of the target: a bad one
faults at the next fetch (R236). -/

namespace Sys2Proof.Machine

/-- R170. -/
def execBeq (rs rt : Reg) (imm : Imm16) (s : State) : Result :=
  finishPc .branch (if s.reg rs = s.reg rt then pc4 s.pc + boff imm else pc4 s.pc) s

/-- R171. -/
def execBne (rs rt : Reg) (imm : Imm16) (s : State) : Result :=
  finishPc .branch (if s.reg rs ≠ s.reg rt then pc4 s.pc + boff imm else pc4 s.pc) s

/-- R172. -/
def execJ (index : Imm26) (s : State) : Result :=
  finishPc .jType (jtarget s.pc index) s

/-- R173. -/
def execJal (index : Imm26) (s : State) : Result :=
  finishLink .jType (jtarget s.pc index) s

/-- R174. -/
def execJr (rs : Reg) (s : State) : Result :=
  finishPc .rType (s.reg rs) s

/-- R175. With rs = 31 JALR_LINK_READ decides (R14, C2); the fault records the whole word (R205), which is the encoding of
the instruction (log 20). -/
def execJalr (rs : Reg) (ign : BitVec 15) (s : State) : Result :=
  if rs = linkReg then
    match s.cfg.jalrLinkRead with
    | .fault => raise (.unpredictableJalr s.pc (encode (.jalr rs ign)))
    | .old => finishLink .rType (s.reg rs) s
    | .new => finishLink .rType (pc4 s.pc) s
  else finishLink .rType (s.reg rs) s

end Sys2Proof.Machine
end

