-- ==== Sys2Proof/Machine/ImmediateAlu.lean ====
section
/-! DEFINITION. The immediate ALU instructions (42_immediate_alu.md). -/

namespace Sys2Proof.Machine

/-- R140. -/
def execAddi (rs rt : Reg) (imm : Imm16) (s : State) : Result :=
  let r := s.reg rs + simm imm
  if addOvf (s.reg rs) (simm imm) r then raise (.arithmeticOverflow s.pc) else finishReg .iType rt r s

/-- R141. -/
def execAddiu (rs rt : Reg) (imm : Imm16) (s : State) : Result :=
  finishReg .iType rt (s.reg rs + simm imm) s

/-- R142; the immediate is zero-extended (D13). -/
def execAndi (rs rt : Reg) (imm : Imm16) (s : State) : Result :=
  finishReg .iType rt (s.reg rs &&& zimm imm) s

/-- R143; the immediate is zero-extended (D13). -/
def execOri (rs rt : Reg) (imm : Imm16) (s : State) : Result :=
  finishReg .iType rt (s.reg rs ||| zimm imm) s

/-- R144. -/
def execLui (rt : Reg) (imm : Imm16) (s : State) : Result :=
  finishReg .iType rt (zimm imm <<< 16) s

/-- R145. -/
def execSlti (rs rt : Reg) (imm : Imm16) (s : State) : Result :=
  finishReg .iType rt (setLtSigned (s.reg rs) (simm imm)) s

/-- The number sltiu compares against, by SLTIU_IMM_EXT (R13, D14). -/
def sltiuOperand (e : ImmExt) (imm : Imm16) : Word :=
  match e with
  | .sext => simm imm
  | .zext => zimm imm

/-- R146. -/
def execSltiu (rs rt : Reg) (imm : Imm16) (s : State) : Result :=
  finishReg .iType rt (setLtUnsigned (s.reg rs) (sltiuOperand s.cfg.sltiuImmExt imm)) s

end Sys2Proof.Machine
end

