-- ==== Sys2Proof/Machine/LoadStore.lean ====
section
/-! DEFINITION. The load and the store (43_load_store.md). The address is checked before any write (R93). -/

namespace Sys2Proof.Machine

/-- R160. -/
def execLw (rs rt : Reg) (imm : Imm16) (s : State) : Result :=
  match checkData s (effAddr (s.reg rs) imm) with
  | .error f => raise f
  | .ok i => finishReg .mem rt (s.dmem.read i) s

/-- R161. -/
def execSw (rs rt : Reg) (imm : Imm16) (s : State) : Result :=
  match checkData s (effAddr (s.reg rs) imm) with
  | .error f => raise f
  | .ok i => finishStore i (s.reg rt) s

end Sys2Proof.Machine
end

