-- ==== Sys2Proof/Machine/RegisterAlu.lean ====
section
/-! DEFINITION. The register-register ALU instructions (41_register_alu.md). Operands are read before the result is written,
so rd may be rs or rt (R92, R238); rd = 0 writes x[0] (R21). -/

namespace Sys2Proof.Machine

/-- R120. -/
def execAdd (rs rt rd : Reg) (s : State) : Result :=
  let r := s.reg rs + s.reg rt
  if addOvf (s.reg rs) (s.reg rt) r then raise (.arithmeticOverflow s.pc) else finishReg .rType rd r s

/-- R121. -/
def execAddu (rs rt rd : Reg) (s : State) : Result :=
  finishReg .rType rd (s.reg rs + s.reg rt) s

/-- R122. -/
def execSub (rs rt rd : Reg) (s : State) : Result :=
  let r := s.reg rs - s.reg rt
  if subOvf (s.reg rs) (s.reg rt) r then raise (.arithmeticOverflow s.pc) else finishReg .rType rd r s

/-- R123. -/
def execSubu (rs rt rd : Reg) (s : State) : Result :=
  finishReg .rType rd (s.reg rs - s.reg rt) s

/-- R124. -/
def execAnd (rs rt rd : Reg) (s : State) : Result :=
  finishReg .rType rd (s.reg rs &&& s.reg rt) s

/-- R125. -/
def execOr (rs rt rd : Reg) (s : State) : Result :=
  finishReg .rType rd (s.reg rs ||| s.reg rt) s

/-- R126. -/
def execNor (rs rt rd : Reg) (s : State) : Result :=
  finishReg .rType rd (~~~(s.reg rs ||| s.reg rt)) s

/-- R127. -/
def execSlt (rs rt rd : Reg) (s : State) : Result :=
  finishReg .rType rd (setLtSigned (s.reg rs) (s.reg rt)) s

/-- R128. -/
def execSltu (rs rt rd : Reg) (s : State) : Result :=
  finishReg .rType rd (setLtUnsigned (s.reg rs) (s.reg rt)) s

/-- R129; the shifted operand is x[rt] (D10). -/
def execSll (rt rd shamt : Reg) (s : State) : Result :=
  finishReg .rType rd (shiftLeft (s.reg rt) shamt) s

/-- R130; the shifted operand is x[rt] (D10), the fill by SRL_KIND (R12). -/
def execSrl (rt rd shamt : Reg) (s : State) : Result :=
  finishReg .rType rd (shiftRight s.cfg.srlKind (s.reg rt) shamt) s

end Sys2Proof.Machine
end

