-- ==== Sys2Proof/Machine/Invalid.lean ====
section
/-! DEFINITION. What a word does that the resolver maps to Invalid (45_invalid.md R190). It is no row of the opcode table, so
it has no constructor of Instr: step calls this meaning for every word decode rejects (log 18). -/

namespace Sys2Proof.Machine

/-- The class of an Invalid word for the statistics: R-type with opcode 0, I-type otherwise (R97, R190). -/
def invalidKind (w : Word) : Kind := if opcodeOf w = 0#6 then .rType else .iType

/-- R190: a no-op that advances the pc, or the fault InvalidInstruction, by INVALID_POLICY (R15). -/
def execInvalid (w : Word) (s : State) : Result :=
  match s.cfg.invalidPolicy with
  | .fault => raise (.invalidInstruction s.pc w)
  | .nop => finishPc (invalidKind w) (pc4 s.pc) s

end Sys2Proof.Machine
end

