-- ==== Sys2Proof/Machine/Step.lean ====
section
/-! DEFINITION. One cycle (40_datapath.md R98), the engine's loop body (R100), and the placing of a word where the next step
fetches it. -/

namespace Sys2Proof.Machine

/-- Steps 2 to 11 of the cycle on the fetched word (R98): the decoded instruction, or the Invalid word's meaning. -/
def execWord (w : Word) (s : State) : Host.Outcome State Fault Refusal :=
  match decode w with
  | .ok i => exec i s
  | .error _ => execInvalid w s

/-- One cycle. A faulted machine stays faulted, with the fault it recorded (R33, R209); a halted one has no step (R100,
R233); otherwise the word at pc is fetched (R81) and run. -/
def step (s : State) : Host.Outcome State Fault Refusal :=
  match s.raised with
  | some f => raise f
  | none =>
    if s.pc = sentinel then .refused .halted
    else
      match fetch s with
      | .error f => raise f
      | .ok w => execWord w s

/-- The engine's loop body as a total function: a completed cycle's state; after a fault the faulted state (R99, R209); a
stopped machine itself, "neither is ever left" (R100, R219). -/
def advance (s : State) : State :=
  match s.status with
  | .running =>
    match step s with
    | .next t => t
    | .fault f => s.recordFault f
    | .refused _ => s
  | .halted => s
  | .faulted _ => s

/-- `s` with the word whose table bits are `w` stored at the index step fetches next, and PROG_LEN long enough to hold it.
It stands for the host's load of a program (R220; log 6). -/
def State.withFetchWord (s : State) (nbits w : Nat) : State :=
  { s with
    imem := s.imem.write (s.pc.toNat / 4) (BitVec.ofNat 32 (w % 2 ^ nbits))
    progLen := max s.progLen (s.pc.toNat / 4 + 1) }

end Sys2Proof.Machine
end

