-- ==== Sys2Proof/Machine/Datapath.lean ====
section
/-! DEFINITION. The eight blocks of the core and the cycle that chains them (40_datapath.md R80 to R98). It is a second
description of one cycle, written from the blocks' rules and not from the instructions': step runs one meaning per
instruction, and an obligation says that the two are the same function. -/

namespace Sys2Proof.Machine

/-- The DecodedInstruction record (R82): every field cut from every word, and the values derived from it (R63). -/
structure Decoded where
  opcode  : BitVec 6
  rs      : Reg
  rt      : Reg
  rd      : Reg
  shamt   : Reg
  func    : BitVec 6
  imm16   : Imm16
  imm26   : Imm26
  simm    : Word
  zimm    : Word
  boff    : Word
  jtarget : Word
  deriving DecidableEq, Repr

/-- The decoder block (R82). -/
def decoderBlock (w pc : Word) : Decoded where
  opcode  := opcodeOf w
  rs      := rsOf w
  rt      := rtOf w
  rd      := rdOf w
  shamt   := shamtOf w
  func    := funcOf w
  imm16   := imm16Of w
  imm26   := imm26Of w
  simm    := simm (imm16Of w)
  zimm    := zimm (imm16Of w)
  boff    := boff (imm16Of w)
  jtarget := jtarget pc (imm26Of w)

/-- The func codes of opcode 0 (R64). -/
def funcTable : List (BitVec 6 × Mnemonic) :=
  [(0x00#6, .sll), (0x02#6, .srl), (0x08#6, .jr), (0x09#6, .jalr), (0x20#6, .add), (0x21#6, .addu), (0x22#6, .sub),
    (0x23#6, .subu), (0x24#6, .and), (0x25#6, .or), (0x27#6, .nor), (0x2A#6, .slt), (0x2B#6, .sltu)]

/-- The non-zero opcodes (R65). -/
def opcodeTable : List (BitVec 6 × Mnemonic) :=
  [(0x02#6, .j), (0x03#6, .jal), (0x04#6, .beq), (0x05#6, .bne), (0x08#6, .addi), (0x09#6, .addiu), (0x0A#6, .slti),
    (0x0B#6, .sltiu), (0x0C#6, .andi), (0x0D#6, .ori), (0x0F#6, .lui), (0x23#6, .lw), (0x2B#6, .sw)]

/-- The resolver block: total, Invalid where no row matches (R66, R83). -/
def resolve (opcode func : BitVec 6) : Mnemonic :=
  if opcode = 0#6 then (funcTable.lookup func).getD .invalid else (opcodeTable.lookup opcode).getD .invalid

/-- Which register the writeback writes (R85). -/
inductive Dest
  | rd
  | link
  | rt
  deriving DecidableEq, Repr

/-- The secondary ALU operand (R85). -/
inductive AluSrc
  | reg
  | imm
  deriving DecidableEq, Repr

/-- The ControlSignals record with its defaults (R85). -/
structure Control where
  dst         : Dest := .rt
  aluSrc      : AluSrc := .reg
  aluOp       : Nat := 0
  memRead     : Bool := false
  memWrite    : Bool := false
  regWrite    : Bool := false
  memToReg    : Bool := false
  branch      : Bool := false
  jump        : Bool := false
  jumpReg     : Bool := false
  jumpAndLink : Bool := false
  deriving DecidableEq, Repr

/-- The control unit: the truth table of R86, the ALU selector numbered as there (D9; log 21). -/
def controlUnit : Mnemonic → Control
  | .add => { dst := .rd, aluOp := 1, regWrite := true }
  | .addu => { dst := .rd, aluOp := 2, regWrite := true }
  | .and => { dst := .rd, aluOp := 3, regWrite := true }
  | .nor => { dst := .rd, aluOp := 4, regWrite := true }
  | .or => { dst := .rd, aluOp := 5, regWrite := true }
  | .slt => { dst := .rd, aluOp := 6, regWrite := true }
  | .sltu => { dst := .rd, aluOp := 7, regWrite := true }
  | .sll => { dst := .rd, aluOp := 8, regWrite := true }
  | .srl => { dst := .rd, aluOp := 9, regWrite := true }
  | .sub => { dst := .rd, aluOp := 10, regWrite := true }
  | .subu => { dst := .rd, aluOp := 11, regWrite := true }
  | .jr => { aluOp := 12, jumpReg := true }
  | .jalr => { dst := .link, regWrite := true, jumpReg := true }
  | .addi | .addiu | .andi | .ori | .lui | .slti | .sltiu => { aluSrc := .imm, regWrite := true }
  | .lw => { aluSrc := .imm, memRead := true, regWrite := true, memToReg := true }
  | .sw => { aluSrc := .imm, memWrite := true }
  | .beq | .bne => { aluSrc := .imm, branch := true }
  | .j => { jump := true }
  | .jal => { dst := .link, regWrite := true, jumpAndLink := true }
  | .invalid => {}

/-- The ALU on the register family, opcode 0, dispatched by aluOp; `none` is the overflow fault (R88). -/
def aluRegister (c : Config) (a b : Word) (shamt : Reg) (aluOp : Nat) : Option Word :=
  match aluOp with
  | 1 => if addOvf a b (a + b) then none else some (a + b)
  | 2 => some (a + b)
  | 3 => some (a &&& b)
  | 4 => some (~~~(a ||| b))
  | 5 => some (a ||| b)
  | 6 => some (setLtSigned a b)
  | 7 => some (setLtUnsigned a b)
  | 8 => some (shiftLeft b shamt)
  | 9 => some (shiftRight c.srlKind b shamt)
  | 10 => if subOvf a b (a - b) then none else some (a - b)
  | 11 => some (a - b)
  | _ => some 0#32

/-- The ALU on a non-zero opcode, dispatched by the opcode (R89). -/
def aluImmediate (c : Config) (a simm zimm : Word) (opcode : BitVec 6) : Option Word :=
  match opcode with
  | 0x08#6 => if addOvf a simm (a + simm) then none else some (a + simm)
  | 0x09#6 => some (a + simm)
  | 0x0C#6 => some (a &&& zimm)
  | 0x0D#6 => some (a ||| zimm)
  | 0x0F#6 => some (zimm <<< 16)
  | 0x0A#6 => some (setLtSigned a simm)
  | 0x0B#6 => some (setLtUnsigned a (if c.sltiuImmExt = .sext then simm else zimm))
  | _ => some 0#32

/-- The ALU block: it dispatches first on the opcode (R87). -/
def alu (c : Config) (a b simm : Word) (shamt : Reg) (zimm : Word) (opcode : BitVec 6) (aluOp : Nat) : Option Word :=
  if opcode = 0#6 then aluRegister c a b shamt aluOp else aluImmediate c a simm zimm opcode

/-- The classifier of step 3 (R97). -/
def classifier (d : Decoded) (m : Mnemonic) : Kind :=
  if d.opcode = 0#6 then .rType
  else if m = .j ∨ m = .jal then .jType
  else if m = .beq ∨ m = .bne then .branch
  else if m = .lw ∨ m = .sw then .mem
  else .iType

/-- Steps 6 and 8 of the load/store unit for a cycle that accesses memory: the bounds check (R93). -/
def lsuCheck (c : Control) (d : Decoded) (s : State) : Except Fault Nat :=
  if c.memRead || c.memWrite then checkData s (s.reg d.rs + d.simm) else .ok 0

/-- Step 8: the store of sw (R94). -/
def memoryStage (c : Control) (d : Decoded) (i : Nat) (s : State) : State :=
  if c.memWrite then s.store i (s.reg d.rt) else s

/-- Step 9: the writeback (R95). `r` is the ALU's result, `loaded` the word read in step 8. -/
def writeback (c : Control) (d : Decoded) (r loaded : Word) (pc : Word) (s : State) : State :=
  if c.regWrite then
    match c.dst with
    | .rd => s.setReg d.rd (if c.memToReg then loaded else r)
    | .link => s.setReg linkReg (pc4 pc)
    | .rt => s.setReg d.rt (if c.memToReg then loaded else r)
  else s

/-- JumpRegValue (R96): x[rs] as read in step 5, but for jalr with rs = 31 under NEW. -/
def jumpRegValue (m : Mnemonic) (d : Decoded) (s : State) : Word :=
  if m = .jalr ∧ d.rs = linkReg ∧ s.cfg.jalrLinkRead = .new then pc4 s.pc else s.reg d.rs

/-- Steps 7 and 10: the PC sequencer, on the state at the start of the cycle (R92, R96). -/
def nextPc (m : Mnemonic) (c : Control) (d : Decoded) (s : State) : Word :=
  if c.branch ∧ ((m = .beq ∧ s.reg d.rs = s.reg d.rt) ∨ (m = .bne ∧ s.reg d.rs ≠ s.reg d.rt)) then pc4 s.pc + d.boff
  else if c.jump ∨ c.jumpAndLink then d.jtarget
  else if c.jumpReg then jumpRegValue m d s
  else pc4 s.pc

/-- Step 5's secondary operand (R91). -/
def operandB (c : Control) (d : Decoded) (s : State) : Word :=
  match c.aluSrc with
  | .reg => s.reg d.rt
  | .imm => d.simm

/-- Steps 4 to 11 with the decoded record and the resolved mnemonic (R98). -/
def cycleDecoded (w : Word) (d : Decoded) (m : Mnemonic) (s : State) : Result :=
  if m = .invalid ∧ s.cfg.invalidPolicy = .fault then raise (.invalidInstruction s.pc w)
  else if m = .jalr ∧ d.rs = linkReg ∧ s.cfg.jalrLinkRead = .fault then raise (.unpredictableJalr s.pc w)
  else
    let c := controlUnit m
    match alu s.cfg (s.reg d.rs) (operandB c d s) d.simm d.shamt d.zimm d.opcode c.aluOp with
    | none => raise (.arithmeticOverflow s.pc)
    | some r =>
      match lsuCheck c d s with
      | .error f => raise f
      | .ok i =>
        let loaded := if c.memRead then s.dmem.read i else 0#32
        let t := writeback c d r loaded s.pc (memoryStage c d i s)
        .next ((t.setPc (nextPc m c d s)).retire (classifier d m))

/-- One cycle as the chain of the blocks (R98, R100). -/
def cycle (s : State) : Result :=
  match s.status with
  | .faulted f => raise f
  | .halted => .refused .halted
  | .running =>
    match fetch s with
    | .error f => raise f
    | .ok w =>
      let d := decoderBlock w s.pc
      cycleDecoded w d (resolve d.opcode d.func) s

end Sys2Proof.Machine
end

