-- ==== Sys2Proof/WellFormed.lean ====
section
/-! DEFINITION. Two well-formedness checks.

An instruction is well formed when it is a form of the assembler (30_encoding.md R69): every field its operands do not name is
zero. NO CHECK HERE REFUSES AN INSTRUCTION TO RUN: every register index is valid (R62) and no encoding is refused for a
don't-care field (R67); decode, encode and exec take ill-formed terms as well (log 19).

A configuration is well formed for a program of a given length when it keeps the bounds of 00_scope.md R8, R9 and R10. -/

namespace Sys2Proof

/-- The fields outside the assembler's operands are zero (R69). jalr's rd field is an operand of `jalr rd, rs`; its rt and
shamt fields are not. -/
def Instr.wellFormed : Instr → Bool
  | .add _ _ _ ign | .addu _ _ _ ign | .sub _ _ _ ign | .subu _ _ _ ign => ign == 0#5
  | .and _ _ _ ign | .or _ _ _ ign | .nor _ _ _ ign => ign == 0#5
  | .slt _ _ _ ign | .sltu _ _ _ ign => ign == 0#5
  | .sll ign _ _ _ | .srl ign _ _ _ => ign == 0#5
  | .jr _ ign => ign == 0#15
  | .jalr _ ign => ign.extractLsb' 10 5 == 0#5 && ign.extractLsb' 0 5 == 0#5
  | .lui ign _ _ => ign == 0#5
  | .addi .. | .addiu .. | .andi .. | .ori .. | .slti .. | .sltiu .. => true
  | .lw .. | .sw .. | .beq .. | .bne .. | .j .. | .jal .. => true

/-- `1 <= MEM_WORDS <= 2^28` (R8). -/
def Config.memWordsOk (c : Config) : Bool :=
  decide (1 ≤ c.memWords) && decide (c.memWords ≤ 2 ^ 28)

/-- `0 <= PROG_LEN <= IMEM_WORDS <= 2^30` (R9). -/
def Config.progLenOk (c : Config) (progLen : Nat) : Bool :=
  decide (progLen ≤ c.imemWords) && decide (c.imemWords ≤ 2 ^ 30)

/-- RESET_PC is a multiple of 4 and lies in the program (R10). -/
def Config.resetPcOk (c : Config) (progLen : Nat) : Bool :=
  decide (c.resetPc.toNat % 4 = 0) && decide (c.resetPc.toNat / 4 < progLen)

/-- The configuration and the program's length meet R8, R9 and R10. -/
def Config.wellFormed (c : Config) (progLen : Nat) : Bool :=
  c.memWordsOk && c.progLenOk progLen && c.resetPcOk progLen

end Sys2Proof
end

