-- ==== Sys2Proof/Machine/Boot.lean ====
section
/-! DEFINITION. The host's part before and after a run (60_exceptions.md R220, R221; 70_reset_and_hazards.md R230): the image's
bytes become the program, the machine boots, and the host reads the observation. -/

namespace Sys2Proof.Machine

/-- Why the host loads no program. -/
inductive LoadError
  /-- The image is no whole number of 4-byte records (R220, D26). Safe (log 24). -/
  | partialRecord
  /-- The program has more words than IMEM_WORDS, which R9 excludes. Safe (log 24). -/
  | tooLong
  deriving DecidableEq, Repr

/-- The words of an image, record by record, big-endian (R44). -/
def assembleImage : List Byte → Except LoadError (List Word)
  | [] => .ok []
  | b0 :: b1 :: b2 :: b3 :: rest =>
    match assembleImage rest with
    | .ok ws => .ok (wordOfBytes b0 b1 b2 b3 :: ws)
    | .error e => .error e
  | _ => .error .partialRecord

/-- The words from index `i` on, as cells in canonical form. -/
def Memory.ofWordsFrom : Nat → List Word → Memory
  | _, [] => []
  | i, w :: ws => if w = 0#32 then Memory.ofWordsFrom (i + 1) ws else (i, w) :: Memory.ofWordsFrom (i + 1) ws

/-- Record k at IMEM[k], PROG_LEN the number of records (R220). -/
def State.loadProgram (s : State) (ws : List Word) : State :=
  { s with imem := Memory.ofWordsFrom 0 ws, progLen := ws.length }

/-- The start of a run: the image assembled and loaded, the reset values of R34 (R220, R230). -/
def bootImage (c : Config) (image : List Byte) : Except LoadError State :=
  match assembleImage image with
  | .error e => .error e
  | .ok ws => if ws.length ≤ c.imemWords then .ok ((State.boot c).loadProgram ws) else .error .tooLong

/-- What the host reads at the end of a run (R221). -/
inductive Observation
  /-- The run has not ended. -/
  | none
  /-- On Halted: the return value x[2] and the counters. -/
  | halted (returnValue : Word) (cycles rType iType jType mem branch : Nat)
  /-- On Faulted: the kind and its info, no counters and no registers. -/
  | faulted (f : Fault)
  deriving DecidableEq, Repr

/-- The observation of a state (R221). -/
def State.observe (s : State) : Observation :=
  match s.status with
  | .running => .none
  | .halted =>
    .halted (s.reg 2#5) s.stats.cycles s.stats.rType s.stats.iType s.stats.jType s.stats.mem s.stats.branch
  | .faulted f => .faulted f

/-- The exit status of an ended run: 0 on normal termination, after a fault any value other than 0 (R220; log 12). -/
def State.exitStatus (s : State) : Option Nat :=
  match s.status with
  | .running => Option.none
  | .halted => some 0
  | .faulted f => some (Config.faultExitStatusPred f.code + 1)

end Sys2Proof.Machine
end

