-- ==== Sys2Proof/Safety.lean ====
section
/-! DEFINITION. The terms claims use: the invariant of the model, frames, the three outcomes of a run. -/

namespace Sys2Proof.Machine

/-- The invariant every step keeps: both memories in canonical form, DMEM within MEM_WORDS (R29), IMEM within PROG_LEN
(R30), and every completed cycle counted in exactly one of the three classes, branches and memory accesses among the I-type
(R97, R240). -/
structure Inv (s : State) : Prop where
  dmemWf    : s.dmem.wf = true
  dmemBound : s.dmem.below s.cfg.memWords = true
  imemWf    : s.imem.wf = true
  imemBound : s.imem.below s.progLen = true
  counted   : s.stats.cycles = s.stats.rType + s.stats.iType + s.stats.jType
  subcounts : s.stats.branch + s.stats.mem ≤ s.stats.iType

/-- Everything outside x, pc, DMEM and the counters is unchanged: the instruction store, PROG_LEN, the parameters, the
status. -/
structure Fixed (s t : State) : Prop where
  imem    : ∀ i, t.imem.read i = s.imem.read i
  progLen : t.progLen = s.progLen
  raised  : t.raised = s.raised
  cfg     : t.cfg = s.cfg

/-- The register of `d` may change, no other does, and DMEM reads as before. -/
structure WritesOnly (d : Reg) (s t : State) : Prop where
  others : ∀ r, r ≠ d → t.reg r = s.reg r
  dmem   : ∀ i, t.dmem.read i = s.dmem.read i
  fixed  : Fixed s t

/-- The word of DMEM at index `i` may change, every other reads as before, and no register changes. -/
structure StoresOnly (i : Nat) (s t : State) : Prop where
  regs   : ∀ r, t.reg r = s.reg r
  others : ∀ k, k ≠ i → t.dmem.read k = s.dmem.read k
  fixed  : Fixed s t

/-- No register changes and DMEM reads as before; the pc and the counters may change. -/
structure MovesOnly (s t : State) : Prop where
  regs  : ∀ r, t.reg r = s.reg r
  dmem  : ∀ i, t.dmem.read i = s.dmem.read i
  fixed : Fixed s t

/-- The counters of `t` are those of `s` plus one cycle and the given increments. -/
def Counted (s t : State) (r i j b m : Nat) : Prop :=
  t.stats = { cycles := s.stats.cycles + 1, rType := s.stats.rType + r, iType := s.stats.iType + i,
              jType := s.stats.jType + j, branch := s.stats.branch + b, mem := s.stats.mem + m }

/-- The outcome is a next state with the property. -/
def Completes (o : Result) (post : State → Prop) : Prop := ∃ t, o = .next t ∧ post t

/-- The outcomes are next states in the relation, or the same fault, or the same refusal. -/
def Agree (R : State → State → Prop) : Result → Result → Prop
  | .next t, .next u => R t u
  | .fault f, .fault g => f = g
  | .refused r, .refused q => r = q
  | _, _ => False

/-- The register an instruction writes when it completes (R23); x[31] for jal and jalr, whatever their fields hold. -/
def destination : Instr → Option Reg
  | .add _ _ rd _ | .addu _ _ rd _ | .sub _ _ rd _ | .subu _ _ rd _ | .and _ _ rd _ | .or _ _ rd _ | .nor _ _ rd _ => some rd
  | .slt _ _ rd _ | .sltu _ _ rd _ | .sll _ _ rd _ | .srl _ _ rd _ => some rd
  | .addi _ rt _ | .addiu _ rt _ | .andi _ rt _ | .ori _ rt _ | .lui _ rt _ | .slti _ rt _ | .sltiu _ rt _ => some rt
  | .lw _ rt _ => some rt
  | .jal _ | .jalr _ _ => some linkReg
  | .sw .. | .beq .. | .bne .. | .j .. | .jr .. => none

/-- The word at the pc, when a running machine fetches it. -/
structure Fetches (s : State) (w : Word) : Prop where
  running   : s.raised = none
  notHalted : s.pc ≠ sentinel
  aligned   : s.pc.toNat % 4 = 0
  inProgram : s.pc.toNat / 4 < s.progLen
  word      : s.imem.read (s.pc.toNat / 4) = w

/-- What the cycle after a jump-register instruction does with its target: SENTINEL ends the run, a target that is no
multiple of 4 or lies past the program faults at the fetch (R174, R203, R204, R233). That the missing step of a halted machine is
the refusal `halted` is the model's choice (log 8). -/
structure TargetChecked (target : Word) (t : State) : Prop where
  halts      : target = sentinel → t.status = .halted ∧ step t = .refused .halted
  misaligned : target ≠ sentinel → target.toNat % 4 ≠ 0 → step t = .fault (.misalignedFetch target)
  outside    : target.toNat % 4 = 0 → t.progLen ≤ target.toNat / 4 → step t = .fault (.fetchOutOfProgram target)

/-- The engine's run (R100): `n` steps, or the first stop among them. -/
def runSteps : Nat → State → Result
  | 0, s => .next s
  | n + 1, s =>
    match step s with
    | .next t => runSteps n t
    | .fault f => .fault f
    | .refused r => .refused r

/-- The run from `s` ends normally. -/
def HaltsFrom (s : State) : Prop := ∃ n, runSteps n s = .refused .halted

/-- The run from `s` ends in the fault `f`. -/
def FaultsFrom (s : State) (f : Fault) : Prop := ∃ n, runSteps n s = .fault f

/-- The run from `s` never ends (R234, R235). -/
def RunsForever (s : State) : Prop := ∀ n, ∃ t, runSteps n s = .next t

/-- A safe run: no fault is ever raised. -/
def Safe (s : State) : Prop := ∀ f, ¬ FaultsFrom s f

end Sys2Proof.Machine
end

