-- ==== Sys2Proof/Certificates/Slice0/Obligations.lean ====
section
/-! DEFINITION. The statements for the provers. Each docstring names the rule of spec/ it formalises. Every statement is about
every state, so about every setting of the parameters R8 to R15 (log 1). A statement about a register written holds for
register 0 like any other (R21), and for a destination that is also a source (R92, R238): the right-hand sides read the state
before the instruction. -/

open Sys2Proof Sys2Proof.Machine

/-! ### Encoding -/

/-- Words written out bit by bit from R61, R64 and R65, one per family, decode to the instruction they stand for. -/
def Obligations.SampleWordsDecode : Prop :=
  decode 0b00000000001000100001100000100000#32 = .ok (.add 1 2 3 0) ∧
  decode 0b00000000000000100001100100000010#32 = .ok (.srl 0 2 3 4) ∧
  decode 0b00100000000000010000000000000101#32 = .ok (.addi 0 1 5) ∧
  decode 0b10001100001000100000000000000100#32 = .ok (.lw 1 2 4) ∧
  decode 0b10101100001000100000000000000100#32 = .ok (.sw 1 2 4) ∧
  decode 0b00010000001000100000000000000010#32 = .ok (.beq 1 2 2) ∧
  decode 0b00001100000000000000000100000000#32 = .ok (.jal 0x100) ∧
  decode 0b00000011111000000000000000001000#32 = .ok (.jr 31 0) ∧
  decode 0b00000000000000000000000000001100#32 = .error (.unmatchedFunc 0x0C) ∧
  decode 0b11111111111111111111111111111111#32 = .error (.unmatchedOpcode 0x3F)

/-- Decoding an encoded instruction gives it back, every operand and every ignored bit at every value (R61 to R67). -/
def Obligations.DecodeReadsBackEncode : Prop :=
  ∀ i : Instr, decode (encode i) = .ok i

/-- A word that decodes is the encoding of the instruction it decodes to: no bit is dropped (R61, R67). -/
def Obligations.EncodeRestoresDecodedWord : Prop :=
  ∀ (w : Word) (i : Instr), decode w = .ok i → encode i = w

/-- The four values the decoder derives from a word and its fetch pc (R63): simm the signed reading of imm16, zimm the
unsigned one, boff four times simm, jtarget the fetch pc's 256 MiB region with four times imm26 below. -/
def Obligations.DecoderDerivesTheImmediates : Prop :=
  ∀ w pc : Word,
    (decoderBlock w pc).simm.toInt = (w.extractLsb' 0 16).toInt ∧
    (decoderBlock w pc).zimm.toNat = w.toNat % 2 ^ 16 ∧
    (decoderBlock w pc).boff.toInt = 4 * (w.extractLsb' 0 16).toInt ∧
    (decoderBlock w pc).jtarget.toNat = pc.toNat / 2 ^ 28 * 2 ^ 28 + w.toNat % 2 ^ 26 * 4

/-- The decoder and the resolver block agree on every word, and the words both reject are those whose opcode and func are
outside R64's and R65's tables (R66, R190). -/
def Obligations.ResolverAgreesWithDecoder : Prop :=
  ∀ w : Word,
    (∀ i, decode w = .ok i → resolve (opcodeOf w) (funcOf w) = i.mnemonic) ∧
    ((∃ r, decode w = .error r) ↔ resolve (opcodeOf w) (funcOf w) = .invalid) ∧
    ((∃ r, decode w = .error r) ↔
      (opcodeOf w = 0x00 ∧
        funcOf w ∉ [0x00#6, 0x02#6, 0x08#6, 0x09#6, 0x20#6, 0x21#6, 0x22#6, 0x23#6, 0x24#6, 0x25#6, 0x27#6, 0x2A#6, 0x2B#6]) ∨
      opcodeOf w ∉ [0x00#6, 0x02#6, 0x03#6, 0x04#6, 0x05#6, 0x08#6, 0x09#6, 0x0A#6, 0x0B#6, 0x0C#6, 0x0D#6, 0x0F#6,
        0x23#6, 0x2B#6])

/-! ### Register-register ALU instructions -/

/-- add (R120): the exact signed sum to x[rd], or ArithmeticOverflowFault when the operands share a sign and the sum's sign
differs, which is when the exact sum is not representable. -/
def Obligations.AddWritesTheSumOrFaults : Prop :=
  ∀ (rs rt rd ign : Reg) (s : State),
    decode (0b000000#6 ++ rs ++ rt ++ rd ++ ign ++ 0b100000#6) = .ok (.add rs rt rd ign) ∧
    controlUnit .add = { dst := .rd, aluOp := 1, regWrite := true } ∧
    (¬ ((s.reg rs).msb = (s.reg rt).msb ∧ (s.reg rs + s.reg rt).msb ≠ (s.reg rs).msb) →
      Completes (exec (.add rs rt rd ign) s) fun t =>
        (t.reg rd).toInt = (s.reg rs).toInt + (s.reg rt).toInt ∧ t.pc = s.pc + 4#32 ∧ WritesOnly rd s t ∧
        Counted s t 1 0 0 0 0) ∧
    ((s.reg rs).msb = (s.reg rt).msb ∧ (s.reg rs + s.reg rt).msb ≠ (s.reg rs).msb →
      exec (.add rs rt rd ign) s = .fault (.arithmeticOverflow s.pc) ∧
      ¬ (-2 ^ 31 ≤ (s.reg rs).toInt + (s.reg rt).toInt ∧ (s.reg rs).toInt + (s.reg rt).toInt ≤ 2 ^ 31 - 1))

/-- addu (R121) and subu (R123): the sum and the difference modulo 2^32, never a fault. -/
def Obligations.AdduAndSubuWrap : Prop :=
  ∀ (rs rt rd ign : Reg) (s : State),
    decode (0b000000#6 ++ rs ++ rt ++ rd ++ ign ++ 0b100001#6) = .ok (.addu rs rt rd ign) ∧
    decode (0b000000#6 ++ rs ++ rt ++ rd ++ ign ++ 0b100011#6) = .ok (.subu rs rt rd ign) ∧
    controlUnit .addu = { dst := .rd, aluOp := 2, regWrite := true } ∧
    controlUnit .subu = { dst := .rd, aluOp := 11, regWrite := true } ∧
    (Completes (exec (.addu rs rt rd ign) s) fun t =>
      (t.reg rd).toNat = ((s.reg rs).toNat + (s.reg rt).toNat) % 2 ^ 32 ∧ t.pc = s.pc + 4#32 ∧ WritesOnly rd s t ∧
      Counted s t 1 0 0 0 0) ∧
    (Completes (exec (.subu rs rt rd ign) s) fun t =>
      ((t.reg rd).toNat : Int) = ((s.reg rs).toNat - (s.reg rt).toNat : Int) % 2 ^ 32 ∧ t.pc = s.pc + 4#32 ∧
      WritesOnly rd s t ∧ Counted s t 1 0 0 0 0)

/-- sub (R122): the exact signed difference to x[rd], or ArithmeticOverflowFault when the operands' signs differ and the
difference's sign is not x[rs]'s, which is when the exact difference is not representable. -/
def Obligations.SubWritesTheDifferenceOrFaults : Prop :=
  ∀ (rs rt rd ign : Reg) (s : State),
    decode (0b000000#6 ++ rs ++ rt ++ rd ++ ign ++ 0b100010#6) = .ok (.sub rs rt rd ign) ∧
    controlUnit .sub = { dst := .rd, aluOp := 10, regWrite := true } ∧
    (¬ ((s.reg rs).msb ≠ (s.reg rt).msb ∧ (s.reg rs - s.reg rt).msb ≠ (s.reg rs).msb) →
      Completes (exec (.sub rs rt rd ign) s) fun t =>
        (t.reg rd).toInt = (s.reg rs).toInt - (s.reg rt).toInt ∧ t.pc = s.pc + 4#32 ∧ WritesOnly rd s t ∧
        Counted s t 1 0 0 0 0) ∧
    ((s.reg rs).msb ≠ (s.reg rt).msb ∧ (s.reg rs - s.reg rt).msb ≠ (s.reg rs).msb →
      exec (.sub rs rt rd ign) s = .fault (.arithmeticOverflow s.pc) ∧
      ¬ (-2 ^ 31 ≤ (s.reg rs).toInt - (s.reg rt).toInt ∧ (s.reg rs).toInt - (s.reg rt).toInt ≤ 2 ^ 31 - 1))

/-- and (R124), or (R125), nor (R126), bit by bit. -/
def Obligations.BitwiseRegisterInstructions : Prop :=
  ∀ (rs rt rd ign : Reg) (s : State),
    decode (0b000000#6 ++ rs ++ rt ++ rd ++ ign ++ 0b100100#6) = .ok (.and rs rt rd ign) ∧
    decode (0b000000#6 ++ rs ++ rt ++ rd ++ ign ++ 0b100101#6) = .ok (.or rs rt rd ign) ∧
    decode (0b000000#6 ++ rs ++ rt ++ rd ++ ign ++ 0b100111#6) = .ok (.nor rs rt rd ign) ∧
    controlUnit .and = { dst := .rd, aluOp := 3, regWrite := true } ∧
    controlUnit .or = { dst := .rd, aluOp := 5, regWrite := true } ∧
    controlUnit .nor = { dst := .rd, aluOp := 4, regWrite := true } ∧
    (Completes (exec (.and rs rt rd ign) s) fun t =>
      (∀ k < 32, (t.reg rd).getLsbD k = ((s.reg rs).getLsbD k && (s.reg rt).getLsbD k)) ∧ t.pc = s.pc + 4#32 ∧
      WritesOnly rd s t ∧ Counted s t 1 0 0 0 0) ∧
    (Completes (exec (.or rs rt rd ign) s) fun t =>
      (∀ k < 32, (t.reg rd).getLsbD k = ((s.reg rs).getLsbD k || (s.reg rt).getLsbD k)) ∧ t.pc = s.pc + 4#32 ∧
      WritesOnly rd s t ∧ Counted s t 1 0 0 0 0) ∧
    (Completes (exec (.nor rs rt rd ign) s) fun t =>
      (∀ k < 32, (t.reg rd).getLsbD k = !((s.reg rs).getLsbD k || (s.reg rt).getLsbD k)) ∧ t.pc = s.pc + 4#32 ∧
      WritesOnly rd s t ∧ Counted s t 1 0 0 0 0)

/-- slt (R127) compares the signed readings, sltu (R128) the unsigned ones; the result is the word 1 or 0. -/
def Obligations.SetOnLessThanRegister : Prop :=
  ∀ (rs rt rd ign : Reg) (s : State),
    decode (0b000000#6 ++ rs ++ rt ++ rd ++ ign ++ 0b101010#6) = .ok (.slt rs rt rd ign) ∧
    decode (0b000000#6 ++ rs ++ rt ++ rd ++ ign ++ 0b101011#6) = .ok (.sltu rs rt rd ign) ∧
    controlUnit .slt = { dst := .rd, aluOp := 6, regWrite := true } ∧
    controlUnit .sltu = { dst := .rd, aluOp := 7, regWrite := true } ∧
    (Completes (exec (.slt rs rt rd ign) s) fun t =>
      (t.reg rd).toNat = (if (s.reg rs).toInt < (s.reg rt).toInt then 1 else 0) ∧ t.pc = s.pc + 4#32 ∧
      WritesOnly rd s t ∧ Counted s t 1 0 0 0 0) ∧
    (Completes (exec (.sltu rs rt rd ign) s) fun t =>
      (t.reg rd).toNat = (if (s.reg rs).toNat < (s.reg rt).toNat then 1 else 0) ∧ t.pc = s.pc + 4#32 ∧
      WritesOnly rd s t ∧ Counted s t 1 0 0 0 0)

/-- sll (R129) and srl (R130) shift x[rt] by shamt, whatever the rs field holds; srl shifts in zeros under LOGICAL and copies
of bit 31 under ARITHMETIC (R12). -/
def Obligations.ShiftsByAnImmediateAmount : Prop :=
  ∀ (ign rt rd shamt : Reg) (s : State),
    decode (0b000000#6 ++ ign ++ rt ++ rd ++ shamt ++ 0b000000#6) = .ok (.sll ign rt rd shamt) ∧
    decode (0b000000#6 ++ ign ++ rt ++ rd ++ shamt ++ 0b000010#6) = .ok (.srl ign rt rd shamt) ∧
    controlUnit .sll = { dst := .rd, aluOp := 8, regWrite := true } ∧
    controlUnit .srl = { dst := .rd, aluOp := 9, regWrite := true } ∧
    (Completes (exec (.sll ign rt rd shamt) s) fun t =>
      (t.reg rd).toNat = ((s.reg rt).toNat * 2 ^ shamt.toNat) % 2 ^ 32 ∧ t.pc = s.pc + 4#32 ∧ WritesOnly rd s t ∧
      Counted s t 1 0 0 0 0) ∧
    (Completes (exec (.srl ign rt rd shamt) s) fun t =>
      (s.cfg.srlKind = .logical → (t.reg rd).toNat = (s.reg rt).toNat / 2 ^ shamt.toNat) ∧
      (s.cfg.srlKind = .arithmetic → (t.reg rd).toInt = (s.reg rt).toInt / 2 ^ shamt.toNat) ∧ t.pc = s.pc + 4#32 ∧
      WritesOnly rd s t ∧ Counted s t 1 0 0 0 0)

/-! ### Immediate ALU instructions -/

/-- addi (R140): the exact signed sum of x[rs] and the sign-extended immediate to x[rt], or ArithmeticOverflowFault in the
same case as add. -/
def Obligations.AddiWritesTheSumOrFaults : Prop :=
  ∀ (rs rt : Reg) (imm : Imm16) (s : State),
    decode (0b001000#6 ++ rs ++ rt ++ imm) = .ok (.addi rs rt imm) ∧
    controlUnit .addi = { aluSrc := .imm, regWrite := true } ∧
    (¬ ((s.reg rs).msb = imm.msb ∧ (s.reg rs + imm.signExtend 32).msb ≠ (s.reg rs).msb) →
      Completes (exec (.addi rs rt imm) s) fun t =>
        (t.reg rt).toInt = (s.reg rs).toInt + imm.toInt ∧ t.pc = s.pc + 4#32 ∧ WritesOnly rt s t ∧
        Counted s t 0 1 0 0 0) ∧
    ((s.reg rs).msb = imm.msb ∧ (s.reg rs + imm.signExtend 32).msb ≠ (s.reg rs).msb →
      exec (.addi rs rt imm) s = .fault (.arithmeticOverflow s.pc) ∧
      ¬ (-2 ^ 31 ≤ (s.reg rs).toInt + imm.toInt ∧ (s.reg rs).toInt + imm.toInt ≤ 2 ^ 31 - 1))

/-- addiu (R141): x[rs] plus the sign-extended immediate, modulo 2^32, never a fault. -/
def Obligations.AddiuWraps : Prop :=
  ∀ (rs rt : Reg) (imm : Imm16) (s : State),
    decode (0b001001#6 ++ rs ++ rt ++ imm) = .ok (.addiu rs rt imm) ∧
    controlUnit .addiu = { aluSrc := .imm, regWrite := true } ∧
    (Completes (exec (.addiu rs rt imm) s) fun t =>
      ((t.reg rt).toNat : Int) = ((s.reg rs).toNat + imm.toInt) % 2 ^ 32 ∧ t.pc = s.pc + 4#32 ∧ WritesOnly rt s t ∧
      Counted s t 0 1 0 0 0)

/-- andi (R142) and ori (R143) with the zero-extended immediate, bit by bit: above bit 15 the immediate's bits are 0. -/
def Obligations.BitwiseImmediateInstructions : Prop :=
  ∀ (rs rt : Reg) (imm : Imm16) (s : State),
    decode (0b001100#6 ++ rs ++ rt ++ imm) = .ok (.andi rs rt imm) ∧
    decode (0b001101#6 ++ rs ++ rt ++ imm) = .ok (.ori rs rt imm) ∧
    controlUnit .andi = { aluSrc := .imm, regWrite := true } ∧
    controlUnit .ori = { aluSrc := .imm, regWrite := true } ∧
    (Completes (exec (.andi rs rt imm) s) fun t =>
      (∀ k < 32, (t.reg rt).getLsbD k = (decide (k < 16) && (s.reg rs).getLsbD k && imm.getLsbD k)) ∧
      t.pc = s.pc + 4#32 ∧ WritesOnly rt s t ∧ Counted s t 0 1 0 0 0) ∧
    (Completes (exec (.ori rs rt imm) s) fun t =>
      (∀ k < 32, (t.reg rt).getLsbD k = ((s.reg rs).getLsbD k || (decide (k < 16) && imm.getLsbD k))) ∧
      t.pc = s.pc + 4#32 ∧ WritesOnly rt s t ∧ Counted s t 0 1 0 0 0)

/-- lui (R144): the immediate in the high half and zeros in the low half, whatever the rs field holds. -/
def Obligations.LuiLoadsTheUpperHalf : Prop :=
  ∀ (ign rt : Reg) (imm : Imm16) (s : State),
    decode (0b001111#6 ++ ign ++ rt ++ imm) = .ok (.lui ign rt imm) ∧
    controlUnit .lui = { aluSrc := .imm, regWrite := true } ∧
    (Completes (exec (.lui ign rt imm) s) fun t =>
      (t.reg rt).toNat = imm.toNat * 2 ^ 16 ∧ t.pc = s.pc + 4#32 ∧ WritesOnly rt s t ∧ Counted s t 0 1 0 0 0)

/-- slti (R145) compares the signed readings; sltiu (R146) the unsigned ones, the immediate sign-extended under SEXT and
zero-extended under ZEXT (R13). -/
def Obligations.SetOnLessThanImmediate : Prop :=
  ∀ (rs rt : Reg) (imm : Imm16) (s : State),
    decode (0b001010#6 ++ rs ++ rt ++ imm) = .ok (.slti rs rt imm) ∧
    decode (0b001011#6 ++ rs ++ rt ++ imm) = .ok (.sltiu rs rt imm) ∧
    controlUnit .slti = { aluSrc := .imm, regWrite := true } ∧
    controlUnit .sltiu = { aluSrc := .imm, regWrite := true } ∧
    (Completes (exec (.slti rs rt imm) s) fun t =>
      (t.reg rt).toNat = (if (s.reg rs).toInt < imm.toInt then 1 else 0) ∧ t.pc = s.pc + 4#32 ∧ WritesOnly rt s t ∧
      Counted s t 0 1 0 0 0) ∧
    (Completes (exec (.sltiu rs rt imm) s) fun t =>
      (s.cfg.sltiuImmExt = .sext →
        (t.reg rt).toNat = (if ((s.reg rs).toNat : Int) < imm.toInt % 2 ^ 32 then 1 else 0)) ∧
      (s.cfg.sltiuImmExt = .zext → (t.reg rt).toNat = (if (s.reg rs).toNat < imm.toNat then 1 else 0)) ∧
      t.pc = s.pc + 4#32 ∧ WritesOnly rt s t ∧ Counted s t 0 1 0 0 0)

/-! ### Load and store -/

/-- lw (R160): the effective address is x[rs] plus the signed offset modulo 2^32; where bit 31 of it is clear and its quarter
lies below MEM_WORDS, x[rt] receives the word at that index; otherwise MemoryBoundsFault with the index. -/
def Obligations.LwLoadsTheWordOrFaults : Prop :=
  ∀ (rs rt : Reg) (imm : Imm16) (s : State),
    decode (0b100011#6 ++ rs ++ rt ++ imm) = .ok (.lw rs rt imm) ∧
    controlUnit .lw = { aluSrc := .imm, memRead := true, regWrite := true, memToReg := true } ∧
    ((effAddr (s.reg rs) imm).toNat : Int) = ((s.reg rs).toNat + imm.toInt) % 2 ^ 32 ∧
    ((effAddr (s.reg rs) imm).toNat < 2 ^ 31 → (effAddr (s.reg rs) imm).toNat / 4 < s.cfg.memWords →
      Completes (exec (.lw rs rt imm) s) fun t =>
        t.reg rt = s.dmem.read ((effAddr (s.reg rs) imm).toNat / 4) ∧ t.pc = s.pc + 4#32 ∧ WritesOnly rt s t ∧
        Counted s t 0 1 0 0 1) ∧
    ((effAddr (s.reg rs) imm).toNat < 2 ^ 31 → s.cfg.memWords ≤ (effAddr (s.reg rs) imm).toNat / 4 →
      exec (.lw rs rt imm) s = .fault (.memoryBounds ((effAddr (s.reg rs) imm).toNat / 4 : Nat) s.pc)) ∧
    (2 ^ 31 ≤ (effAddr (s.reg rs) imm).toNat →
      exec (.lw rs rt imm) s =
        .fault (.memoryBounds (((effAddr (s.reg rs) imm).toNat - 2 ^ 32 : Int).tdiv 4) s.pc))

/-- sw (R161): with the same address and the same checks as lw, the word x[rt] is stored at the index, every other word of
DMEM reads as before, and no register changes. -/
def Obligations.SwStoresTheWordOrFaults : Prop :=
  ∀ (rs rt : Reg) (imm : Imm16) (s : State),
    decode (0b101011#6 ++ rs ++ rt ++ imm) = .ok (.sw rs rt imm) ∧
    controlUnit .sw = { aluSrc := .imm, memWrite := true } ∧
    ((effAddr (s.reg rs) imm).toNat : Int) = ((s.reg rs).toNat + imm.toInt) % 2 ^ 32 ∧
    ((effAddr (s.reg rs) imm).toNat < 2 ^ 31 → (effAddr (s.reg rs) imm).toNat / 4 < s.cfg.memWords →
      Completes (exec (.sw rs rt imm) s) fun t =>
        t.dmem.read ((effAddr (s.reg rs) imm).toNat / 4) = s.reg rt ∧ t.pc = s.pc + 4#32 ∧
        StoresOnly ((effAddr (s.reg rs) imm).toNat / 4) s t ∧ Counted s t 0 1 0 0 1) ∧
    ((effAddr (s.reg rs) imm).toNat < 2 ^ 31 → s.cfg.memWords ≤ (effAddr (s.reg rs) imm).toNat / 4 →
      exec (.sw rs rt imm) s = .fault (.memoryBounds ((effAddr (s.reg rs) imm).toNat / 4 : Nat) s.pc)) ∧
    (2 ^ 31 ≤ (effAddr (s.reg rs) imm).toNat →
      exec (.sw rs rt imm) s =
        .fault (.memoryBounds (((effAddr (s.reg rs) imm).toNat - 2 ^ 32 : Int).tdiv 4) s.pc))

/-- A load returns the word last stored at its index, and a store reaches no other index (R47, R50): after a completed sw, a
legal lw by any base and offset gives x[rt] of the sw at the same index, and the word from before at another. -/
def Obligations.LoadReturnsTheLastStore : Prop :=
  ∀ (rs rt rs' rt' : Reg) (imm imm' : Imm16) (s t : State),
    exec (.sw rs rt imm) s = .next t →
    (effAddr (t.reg rs') imm').toNat < 2 ^ 31 → (effAddr (t.reg rs') imm').toNat / 4 < t.cfg.memWords →
    Completes (exec (.lw rs' rt' imm') t) fun u =>
      u.reg rt' = (if (effAddr (t.reg rs') imm').toNat / 4 = (effAddr (s.reg rs) imm).toNat / 4 then s.reg rt
        else s.dmem.read ((effAddr (t.reg rs') imm').toNat / 4))

/-- Under the bound of R8 the address modulo 2^32 gives the same access as the exact signed sum: in bounds the same index,
out of bounds MemoryBoundsFault (R8, D8). -/
def Obligations.EffectiveAddressIsExactUnderTheBound : Prop :=
  ∀ (rs rt : Reg) (imm : Imm16) (s : State), s.cfg.memWords ≤ 2 ^ 28 →
    (∀ n : Nat, (s.reg rs).toInt + imm.toInt = n → n / 4 < s.cfg.memWords →
      Completes (exec (.lw rs rt imm) s) fun t => t.reg rt = s.dmem.read (n / 4)) ∧
    ((s.reg rs).toInt + imm.toInt < 0 ∨ (4 * s.cfg.memWords : Int) ≤ (s.reg rs).toInt + imm.toInt →
      ∃ k, exec (.lw rs rt imm) s = .fault (.memoryBounds k s.pc))

/-! ### Control transfer -/

/-- beq (R170) and bne (R171): the branch goes to pc + 4 + 4 * offset modulo 2^32 when all 32 bits of x[rs] and x[rt] are
equal, or for bne differ, and to pc + 4 otherwise; executed branches are counted, taken or not. -/
def Obligations.BranchesCompareAndMoveThePc : Prop :=
  ∀ (rs rt : Reg) (imm : Imm16) (s : State),
    decode (0b000100#6 ++ rs ++ rt ++ imm) = .ok (.beq rs rt imm) ∧
    decode (0b000101#6 ++ rs ++ rt ++ imm) = .ok (.bne rs rt imm) ∧
    controlUnit .beq = { aluSrc := .imm, branch := true } ∧
    controlUnit .bne = { aluSrc := .imm, branch := true } ∧
    (Completes (exec (.beq rs rt imm) s) fun t =>
      (t.pc.toNat : Int) = (s.pc.toNat + 4 + (if s.reg rs = s.reg rt then 4 * imm.toInt else 0)) % 2 ^ 32 ∧
      MovesOnly s t ∧ Counted s t 0 1 0 1 0) ∧
    (Completes (exec (.bne rs rt imm) s) fun t =>
      (t.pc.toNat : Int) = (s.pc.toNat + 4 + (if s.reg rs = s.reg rt then 0 else 4 * imm.toInt)) % 2 ^ 32 ∧
      MovesOnly s t ∧ Counted s t 0 1 0 1 0)

/-- j (R172) and jal (R173): the target has the top four bits of the fetch pc and 4 times the index below; jal writes pc + 4
to x[31], j writes nothing. -/
def Obligations.JumpsGoToTheRegionTarget : Prop :=
  ∀ (index : Imm26) (s : State),
    decode (0b000010#6 ++ index) = .ok (.j index) ∧
    decode (0b000011#6 ++ index) = .ok (.jal index) ∧
    controlUnit .j = { jump := true } ∧
    controlUnit .jal = { dst := .link, regWrite := true, jumpAndLink := true } ∧
    (Completes (exec (.j index) s) fun t =>
      t.pc.toNat = s.pc.toNat / 2 ^ 28 * 2 ^ 28 + index.toNat * 4 ∧ MovesOnly s t ∧ Counted s t 0 0 1 0 0) ∧
    (Completes (exec (.jal index) s) fun t =>
      t.pc.toNat = s.pc.toNat / 2 ^ 28 * 2 ^ 28 + index.toNat * 4 ∧ t.reg 31 = s.pc + 4#32 ∧ WritesOnly 31 s t ∧
      Counted s t 0 0 1 0 0)

/-- jr (R174): the pc is x[rs], whatever the ignored fields hold, and nothing else changes; the target is checked by the next
cycle's fetch, and SENTINEL ends the run; that the missing step is then the refusal `halted` is the model's choice (log 8). -/
def Obligations.JrLoadsThePc : Prop :=
  ∀ (rs : Reg) (ign : BitVec 15) (s : State),
    decode (0b000000#6 ++ rs ++ ign ++ 0b001000#6) = .ok (.jr rs ign) ∧
    controlUnit .jr = { aluOp := 12, jumpReg := true } ∧
    (Completes (exec (.jr rs ign) s) fun t =>
      t.pc = s.reg rs ∧ MovesOnly s t ∧ Counted s t 1 0 0 0 0 ∧ (s.raised = none → TargetChecked (s.reg rs) t))

/-- jalr (R175): x[31] is pc + 4 whatever the rd field holds, and the pc is x[rs] from before that write; with rs = 31 the
parameter JALR_LINK_READ gives the fault, the old x[31] or pc + 4. The target is checked as for jr; that the missing step at
SENTINEL is the refusal `halted` is the model's choice (log 8). -/
def Obligations.JalrLinksAndJumps : Prop :=
  ∀ (rs : Reg) (ign : BitVec 15) (s : State),
    decode (0b000000#6 ++ rs ++ ign ++ 0b001001#6) = .ok (.jalr rs ign) ∧
    controlUnit .jalr = { dst := .link, regWrite := true, jumpReg := true } ∧
    (rs = 31 → s.cfg.jalrLinkRead = .fault →
      exec (.jalr rs ign) s = .fault (.unpredictableJalr s.pc (0b000000#6 ++ rs ++ ign ++ 0b001001#6))) ∧
    (rs ≠ 31 ∨ s.cfg.jalrLinkRead = .old →
      Completes (exec (.jalr rs ign) s) fun t =>
        t.pc = s.reg rs ∧ t.reg 31 = s.pc + 4#32 ∧ WritesOnly 31 s t ∧ Counted s t 1 0 0 0 0 ∧
        (s.raised = none → TargetChecked (s.reg rs) t)) ∧
    (rs = 31 → s.cfg.jalrLinkRead = .new →
      Completes (exec (.jalr rs ign) s) fun t =>
        t.pc = s.pc + 4#32 ∧ t.reg 31 = s.pc + 4#32 ∧ WritesOnly 31 s t ∧ Counted s t 1 0 0 0 0)

/-! ### The cycle -/

/-- Invalid words (R190): the control signals all take their defaults, and when the word at the pc has an opcode and func
outside the two tables, the step only advances the pc and counts the word as R-type with opcode 0 and as I-type otherwise,
under NOP; under FAULT it raises InvalidInstruction. -/
def Obligations.InvalidWordsDoNothingOrFault : Prop :=
  controlUnit .invalid = {} ∧
  ∀ (s : State) (w : Word), Fetches s w →
    (opcodeOf w = 0x00 ∧
        funcOf w ∉ [0x00#6, 0x02#6, 0x08#6, 0x09#6, 0x20#6, 0x21#6, 0x22#6, 0x23#6, 0x24#6, 0x25#6, 0x27#6, 0x2A#6, 0x2B#6]) ∨
      opcodeOf w ∉ [0x00#6, 0x02#6, 0x03#6, 0x04#6, 0x05#6, 0x08#6, 0x09#6, 0x0A#6, 0x0B#6, 0x0C#6, 0x0D#6, 0x0F#6,
        0x23#6, 0x2B#6] →
    (s.cfg.invalidPolicy = .nop →
      Completes (step s) fun t =>
        t.pc = s.pc + 4#32 ∧ MovesOnly s t ∧
        (opcodeOf w = 0#6 → Counted s t 1 0 0 0 0) ∧ (opcodeOf w ≠ 0#6 → Counted s t 0 1 0 0 0)) ∧
    (s.cfg.invalidPolicy = .fault → step s = .fault (.invalidInstruction s.pc w))

/-- A step of a running machine runs the instruction the word at the pc decodes to; nothing is added around it (R80, R98). -/
def Obligations.StepRunsTheDecodedInstruction : Prop :=
  ∀ (s : State) (w : Word) (i : Instr), Fetches s w → decode w = .ok i → step s = exec i s

/-- The fetch (R81): while the machine runs, MisalignedFetch comes first, then FetchOutOfProgram, and otherwise the word at
index pc div 4 is the one that is run. -/
def Obligations.FetchChecksAlignmentThenTheProgram : Prop :=
  ∀ s : State, s.raised = none → s.pc ≠ 0xFFFFFFFF#32 →
    (s.pc.toNat % 4 ≠ 0 → step s = .fault (.misalignedFetch s.pc)) ∧
    (s.pc.toNat % 4 = 0 → s.progLen ≤ s.pc.toNat / 4 → step s = .fault (.fetchOutOfProgram s.pc)) ∧
    (s.pc.toNat % 4 = 0 → s.pc.toNat / 4 < s.progLen → step s = execWord (s.imem.read (s.pc.toNat / 4)) s)

/-- Halted (R33, R100, R233): it holds exactly when pc = SENTINEL and no fault was raised; exactly then a step is refused, and
the machine is never left. -/
def Obligations.StepIsRefusedOnlyWhenHalted : Prop :=
  ∀ s : State,
    (s.status = .halted ↔ s.raised = none ∧ s.pc = 0xFFFFFFFF#32) ∧
    (∀ r, step s = .refused r ↔ r = .halted ∧ s.status = .halted) ∧
    (s.status = .halted → advance s = s)

/-- A fault (R99, R209): the faulted state has x, pc, DMEM, IMEM, PROG_LEN and the parameters as at the start of the cycle,
its status is Faulted with the fault and the faulting instruction's pc, and it is never left. The counters of the faulted
state are free values (log 11); nothing is said of them. R209 says only that no step follows: that the step of a faulted machine
answers its fault again is the model's reading (log 9). -/
def Obligations.FaultsAreRecordedAndFinal : Prop :=
  ∀ (s : State) (f : Fault), s.raised = none → step s = .fault f →
    f.pc = s.pc ∧
    (∀ r, (advance s).reg r = s.reg r) ∧ (advance s).pc = s.pc ∧ (advance s).dmem = s.dmem ∧
    (advance s).imem = s.imem ∧ (advance s).progLen = s.progLen ∧ (advance s).cfg = s.cfg ∧
    (advance s).status = .faulted f ∧ step (advance s) = .fault f ∧ advance (advance s) = advance s

/-- Which instruction raises which fault (R90, R200, R208): add, sub and addi ArithmeticOverflowFault, lw and sw
MemoryBoundsFault, jalr with rs = 31 under FAULT UnpredictableJalr; no instruction raises another or a privilege fault
(R212). -/
def Obligations.InstructionsRaiseOnlyTheirFaults : Prop :=
  ∀ (i : Instr) (s : State) (f : Fault), exec i s = .fault f →
    (f = .arithmeticOverflow s.pc ∧ (i.mnemonic = .add ∨ i.mnemonic = .sub ∨ i.mnemonic = .addi)) ∨
    (∃ k, f = .memoryBounds k s.pc ∧ (i.mnemonic = .lw ∨ i.mnemonic = .sw)) ∨
    (f = .unpredictableJalr s.pc (encode i) ∧ s.cfg.jalrLinkRead = .fault ∧ ∃ ign, i = .jalr 31 ign)

/-- Writers of the register file (R23): a completed step changes no register but the destination of the instruction it ran;
sw, beq, bne, j, jr and Invalid words change none. -/
def Obligations.OneRegisterWriterPerCycle : Prop :=
  ∀ (s t : State) (w : Word), Fetches s w → step s = .next t →
    (∀ i, decode w = .ok i → ∀ r, t.reg r ≠ s.reg r → destination i = some r) ∧
    (∀ e, decode w = .error e → ∀ r, t.reg r = s.reg r)

/-- The data memory (R29): only sw changes a word of it, and only lw reads it: any other instruction does the same, but for
DMEM itself, whatever DMEM holds. -/
def Obligations.OnlyLwReadsAndOnlySwWritesDataMemory : Prop :=
  (∀ (i : Instr) (s t : State) (k : Nat), exec i s = .next t → t.dmem.read k ≠ s.dmem.read k → i.mnemonic = .sw) ∧
  (∀ (i : Instr) (s : State) (m : Memory), i.mnemonic ≠ .lw →
    Agree (fun t u => u = { t with dmem := u.dmem }) (exec i s) (exec i { s with dmem := m }))

/-- The counters (R97): a completed step adds 1 to cycles; to rType when the opcode is 0, to jType for j and jal, to iType for
every other word, to branch for beq and bne, to mem for lw and sw. -/
def Obligations.CountersClassifyEveryWord : Prop :=
  ∀ (s t : State) (w : Word), Fetches s w → step s = .next t →
    t.stats.cycles = s.stats.cycles + 1 ∧
    t.stats.rType = s.stats.rType + (if opcodeOf w = 0x00 then 1 else 0) ∧
    t.stats.jType = s.stats.jType + (if opcodeOf w = 0x02 ∨ opcodeOf w = 0x03 then 1 else 0) ∧
    t.stats.iType = s.stats.iType + (if opcodeOf w = 0x00 ∨ opcodeOf w = 0x02 ∨ opcodeOf w = 0x03 then 0 else 1) ∧
    t.stats.branch = s.stats.branch + (if opcodeOf w = 0x04 ∨ opcodeOf w = 0x05 then 1 else 0) ∧
    t.stats.mem = s.stats.mem + (if opcodeOf w = 0x23 ∨ opcodeOf w = 0x2B then 1 else 0)

/-- A step leaves an aligned pc for an unaligned one only by jr or jalr, so only they can reach SENTINEL (R25, R233). -/
def Obligations.OnlyJumpRegisterLeavesAlignment : Prop :=
  ∀ (s t : State) (w : Word), Fetches s w → step s = .next t → t.pc.toNat % 4 ≠ 0 →
    ∃ rs ign, decode w = .ok (.jr rs ign) ∨ decode w = .ok (.jalr rs ign)

/-- No step changes the instruction store, PROG_LEN or the parameters, and a completed step records no fault (R30, R40,
R54). -/
def Obligations.StepsKeepTheProgramAndTheParameters : Prop :=
  ∀ s t : State, step s = .next t → t.imem = s.imem ∧ t.progLen = s.progLen ∧ t.cfg = s.cfg ∧ t.raised = none

/-- A program cannot observe the counters (R31, R214): with other counter values the step does the same, but for the
counters. -/
def Obligations.CountersAreUnobservable : Prop :=
  ∀ (s : State) (st : Statistics),
    Agree (fun t u => u = { t with stats := u.stats }) (step s) (step { s with stats := st })

/-- Words at index PROG_LEN and above are not part of the program (R30): whatever they hold, the step does the same. -/
def Obligations.WordsPastTheProgramAreUnread : Prop :=
  ∀ (s : State) (k : Nat) (v : Word), s.progLen ≤ k →
    Agree (fun t u => u = { t with imem := u.imem }) (step s) (step { s with imem := s.imem.write k v })

/-- The per-instruction step is the chain of the eight blocks: fetch, decoder, resolver, control, ALU, load/store unit,
writeback and PC sequencer, in the order of R98 (R80 to R98), on every state under every setting of the parameters. -/
def Obligations.StepIsTheDatapathCycle : Prop :=
  ∀ s : State, step s = cycle s

/-- Every step keeps the invariant: both memories in canonical form and within their bounds, every completed cycle counted in
exactly one class (R29, R30, R97, R240). -/
def Obligations.StepsKeepTheInvariant : Prop :=
  ∀ s t : State, Inv s → step s = .next t → Inv t

/-! ### Boot and the run -/

/-- The reset values (R34) and the image (R44, R220): a boot that succeeds has x[31] = SENTINEL, the INIT_REGS values, pc =
RESET_PC, DMEM all 0, the counters 0, no fault raised, PROG_LEN the number of 4-byte records and record k, its first byte the
most significant, at IMEM[k]. It fails exactly for an image that is no whole number of records or, by the model's own choice
(log 24), one longer than IMEM_WORDS. -/
def Obligations.BootLoadsTheImageAndTheResetValues : Prop :=
  ∀ (c : Config) (image : List Byte),
    (image.length % 4 ≠ 0 → bootImage c image = .error .partialRecord) ∧
    (image.length % 4 = 0 → c.imemWords < image.length / 4 → bootImage c image = .error .tooLong) ∧
    (image.length % 4 = 0 → image.length / 4 ≤ c.imemWords →
      ∃ s, bootImage c image = .ok s ∧
        s.reg 31 = 0xFFFFFFFF#32 ∧ (∀ r : Fin 31, s.reg (BitVec.ofNat 5 r) = c.initRegs[r]) ∧
        s.pc = c.resetPc ∧ (∀ k, s.dmem.read k = 0#32) ∧ s.progLen = image.length / 4 ∧
        (∀ k < image.length / 4, (s.imem.read k).toNat =
          (image.getD (4 * k) 0#8).toNat * 2 ^ 24 + (image.getD (4 * k + 1) 0#8).toNat * 2 ^ 16 +
          (image.getD (4 * k + 2) 0#8).toNat * 2 ^ 8 + (image.getD (4 * k + 3) 0#8).toNat) ∧
        s.stats.cycles = 0 ∧ s.stats.rType = 0 ∧ s.stats.iType = 0 ∧ s.stats.jType = 0 ∧ s.stats.branch = 0 ∧
        s.stats.mem = 0 ∧ s.raised = none ∧ s.cfg = c)

/-- State.reset is the reference boot: x[31] = SENTINEL, DMEM all 0 and status Running are the spec's (R34); the zeros of x[0]
to x[30], the pc 0 and the absent program are the model's choice of parameters (log 4, log 5, log 6). -/
def Obligations.ResetIsTheReferenceBoot : Prop :=
  State.reset.reg 31 = 0xFFFFFFFF#32 ∧ (∀ r : Reg, r ≠ 31 → State.reset.reg r = 0#32) ∧
  State.reset.pc = 0#32 ∧ (∀ k, State.reset.dmem.read k = 0#32) ∧ State.reset.progLen = 0 ∧
  State.reset.status = .running ∧ State.reset.stats = ⟨0, 0, 0, 0, 0, 0⟩

/-- The invariant holds at reset and after every boot (R34, R230). -/
def Obligations.BootStatesMeetTheInvariant : Prop :=
  Inv State.reset ∧ ∀ (c : Config) (image : List Byte) (s : State), bootImage c image = .ok s → Inv s

/-- The run has exactly three outcomes: Halted, Faulted, or an infinite run (R234). Halted shows as the refusal `halted` (log 8)
and Faulted as the fault a step answers (log 9), the model's choices. -/
def Obligations.EveryRunHasExactlyOneOutcome : Prop :=
  ∀ s : State,
    (HaltsFrom s ∨ (∃ f, FaultsFrom s f) ∨ RunsForever s) ∧
    ¬ (HaltsFrom s ∧ ∃ f, FaultsFrom s f) ∧ ¬ (HaltsFrom s ∧ RunsForever s) ∧
    ¬ ((∃ f, FaultsFrom s f) ∧ RunsForever s) ∧ ∀ f g, FaultsFrom s f → FaultsFrom s g → f = g

/-- A hang is an outcome (R235): the taken branch to itself 0x1000FFFF, a j to its own address and a jr to its own address
run for ever. -/
def Obligations.HangsRunForever : Prop :=
  (∀ s : State, Fetches s 0x1000FFFF#32 → RunsForever s) ∧
  (∀ (s : State) (index : Imm26), Fetches s (0b000010#6 ++ index) → jtarget s.pc index = s.pc → RunsForever s) ∧
  (∀ (s : State) (rs : Reg) (ign : BitVec 15), Fetches s (0b000000#6 ++ rs ++ ign ++ 0b001000#6) → s.reg rs = s.pc →
    RunsForever s)

/-- What the host reads (R214, R220, R221): on Halted x[2], the counters and exit status 0; on Faulted the kind and its info and an
exit status other than 0, no counters and no registers; nothing while the run goes on. -/
def Obligations.TheHostReadsOnlyEndedRuns : Prop :=
  ∀ s : State,
    (s.raised = none → s.pc = 0xFFFFFFFF#32 →
      s.observe = .halted (s.reg 2) s.stats.cycles s.stats.rType s.stats.iType s.stats.jType s.stats.mem s.stats.branch ∧
      s.exitStatus = some 0) ∧
    (∀ f, s.raised = some f → s.observe = .faulted f ∧ ∃ n, n ≠ 0 ∧ s.exitStatus = some n) ∧
    (s.raised = none → s.pc ≠ 0xFFFFFFFF#32 → s.observe = .none ∧ s.exitStatus = none)

/-- Memories in canonical form that read the same at every index are equal data (R29, R47; log 13). -/
def Obligations.CanonicalMemoriesAreDeterminedByTheirReads : Prop :=
  ∀ m n : Memory, m.wf = true → n.wf = true → (∀ i, m.read i = n.read i) → m = n

/-- The decoder block cuts every word into the same fields, whatever the instruction (R61, R82): each is the word's bits from
its lowest bit up, read as a number. -/
def Obligations.DecoderCutsEveryField : Prop :=
  ∀ w pc : Word,
    (decoderBlock w pc).opcode.toNat = w.toNat / 2 ^ 26 ∧
    (decoderBlock w pc).rs.toNat = w.toNat / 2 ^ 21 % 2 ^ 5 ∧
    (decoderBlock w pc).rt.toNat = w.toNat / 2 ^ 16 % 2 ^ 5 ∧
    (decoderBlock w pc).rd.toNat = w.toNat / 2 ^ 11 % 2 ^ 5 ∧
    (decoderBlock w pc).shamt.toNat = w.toNat / 2 ^ 6 % 2 ^ 5 ∧
    (decoderBlock w pc).func.toNat = w.toNat % 2 ^ 6 ∧
    (decoderBlock w pc).imm16.toNat = w.toNat % 2 ^ 16 ∧
    (decoderBlock w pc).imm26.toNat = w.toNat % 2 ^ 26
end

