-- ==== Sys2Proof/Laws/Bits.lean ====
section
/-! SUPPORT. The fields of an encoded word are the fields put in, and a word is its fields put together (R61). -/

namespace Sys2Proof

/-! ### Fields of a concatenation -/

theorem field_append_high {m n : Nat} (x : BitVec m) (y : BitVec n) (i k : Nat) (h : n ≤ i) :
    (x ++ y).extractLsb' i k = x.extractLsb' (i - n) k :=
  BitVec.extractLsb'_append_eq_of_le h

theorem field_append_low {m n : Nat} (x : BitVec m) (y : BitVec n) (i k : Nat) (h : i + k ≤ n) :
    (x ++ y).extractLsb' i k = y.extractLsb' i k :=
  BitVec.extractLsb'_append_eq_of_add_le h

theorem field_whole {n : Nat} (x : BitVec n) : x.extractLsb' 0 n = x :=
  BitVec.extractLsb'_eq_self

/-- Two neighbouring fields are one field. -/
theorem field_join (w : Word) (i k n j : Nat) (h : j = i + k) :
    w.extractLsb' j n ++ w.extractLsb' i k = w.extractLsb' i (n + k) := by
  subst h
  exact BitVec.extractLsb'_append_extractLsb'_eq_extractLsb' rfl

/-! ### A word is its fields -/

theorem encodeR_of_fields (w : Word) (f : BitVec 6) (hop : opcodeOf w = 0#6) (hf : funcOf w = f) :
    encodeR f (rsOf w) (rtOf w) (rdOf w) (shamtOf w) = w := by
  subst hf
  unfold encodeR
  rw [← hop]
  unfold opcodeOf rsOf rtOf rdOf shamtOf funcOf
  rw [field_join w 21 5 6 26 rfl, field_join w 16 5 _ 21 rfl, field_join w 11 5 _ 16 rfl, field_join w 6 5 _ 11 rfl,
    field_join w 0 6 _ 6 rfl]
  exact field_whole w

theorem encodeJumpReg_of_fields (w : Word) (f : BitVec 6) (hop : opcodeOf w = 0#6) (hf : funcOf w = f) :
    encodeJumpReg f (rsOf w) (ignoredOf w) = w := by
  subst hf
  unfold encodeJumpReg
  rw [← hop]
  unfold opcodeOf rsOf ignoredOf funcOf
  rw [field_join w 21 5 6 26 rfl, field_join w 6 15 _ 21 rfl, field_join w 0 6 _ 6 rfl]
  exact field_whole w

theorem encodeI_of_fields (w : Word) (op : BitVec 6) (hop : opcodeOf w = op) :
    encodeI op (rsOf w) (rtOf w) (imm16Of w) = w := by
  subst hop
  unfold encodeI opcodeOf rsOf rtOf imm16Of
  rw [field_join w 21 5 6 26 rfl, field_join w 16 5 _ 21 rfl, field_join w 0 16 _ 16 rfl]
  exact field_whole w

theorem encodeJ_of_fields (w : Word) (op : BitVec 6) (hop : opcodeOf w = op) : encodeJ op (imm26Of w) = w := by
  subst hop
  unfold encodeJ opcodeOf imm26Of
  rw [field_join w 0 26 6 26 rfl]
  exact field_whole w

/-! ### The fields of the R-format -/

variable (f op : BitVec 6) (rs rt rd shamt : Reg) (ign : BitVec 15) (imm : Imm16) (index : Imm26)

theorem opcodeOf_encodeR : opcodeOf (encodeR f rs rt rd shamt) = 0#6 := by
  simp (disch := omega) only [opcodeOf, encodeR, field_append_high, Nat.reduceSub, field_whole]

theorem rsOf_encodeR : rsOf (encodeR f rs rt rd shamt) = rs := by
  simp (disch := omega) only [rsOf, encodeR, field_append_high, field_append_low, Nat.reduceSub, field_whole]

theorem rtOf_encodeR : rtOf (encodeR f rs rt rd shamt) = rt := by
  simp (disch := omega) only [rtOf, encodeR, field_append_high, field_append_low, Nat.reduceSub, field_whole]

theorem rdOf_encodeR : rdOf (encodeR f rs rt rd shamt) = rd := by
  simp (disch := omega) only [rdOf, encodeR, field_append_high, field_append_low, Nat.reduceSub, field_whole]

theorem shamtOf_encodeR : shamtOf (encodeR f rs rt rd shamt) = shamt := by
  simp (disch := omega) only [shamtOf, encodeR, field_append_high, field_append_low, Nat.sub_self, field_whole]

theorem funcOf_encodeR : funcOf (encodeR f rs rt rd shamt) = f := by
  simp (disch := omega) only [funcOf, encodeR, field_append_low, field_whole]

/-! ### The fields of jr and jalr -/

theorem opcodeOf_encodeJumpReg : opcodeOf (encodeJumpReg f rs ign) = 0#6 := by
  simp (disch := omega) only [opcodeOf, encodeJumpReg, field_append_high, Nat.reduceSub, field_whole]

theorem rsOf_encodeJumpReg : rsOf (encodeJumpReg f rs ign) = rs := by
  simp (disch := omega) only [rsOf, encodeJumpReg, field_append_high, field_append_low, Nat.reduceSub, field_whole]

theorem ignoredOf_encodeJumpReg : ignoredOf (encodeJumpReg f rs ign) = ign := by
  simp (disch := omega) only [ignoredOf, encodeJumpReg, field_append_high, field_append_low, Nat.sub_self, field_whole]

theorem funcOf_encodeJumpReg : funcOf (encodeJumpReg f rs ign) = f := by
  simp (disch := omega) only [funcOf, encodeJumpReg, field_append_low, field_whole]

/-! ### The fields of the I-format -/

theorem opcodeOf_encodeI : opcodeOf (encodeI op rs rt imm) = op := by
  simp (disch := omega) only [opcodeOf, encodeI, field_append_high, Nat.reduceSub, field_whole]

theorem rsOf_encodeI : rsOf (encodeI op rs rt imm) = rs := by
  simp (disch := omega) only [rsOf, encodeI, field_append_high, field_append_low, Nat.reduceSub, field_whole]

theorem rtOf_encodeI : rtOf (encodeI op rs rt imm) = rt := by
  simp (disch := omega) only [rtOf, encodeI, field_append_high, field_append_low, Nat.sub_self, field_whole]

theorem imm16Of_encodeI : imm16Of (encodeI op rs rt imm) = imm := by
  simp (disch := omega) only [imm16Of, encodeI, field_append_low, field_whole]

/-! ### The fields of the J-format -/

theorem opcodeOf_encodeJ : opcodeOf (encodeJ op index) = op := by
  simp (disch := omega) only [opcodeOf, encodeJ, field_append_high, Nat.sub_self, field_whole]

theorem imm26Of_encodeJ : imm26Of (encodeJ op index) = index := by
  simp (disch := omega) only [imm26Of, encodeJ, field_append_low, field_whole]

end Sys2Proof
end

