-- ==== Sys2Proof/Laws/Flags.lean ====
section
/-! SUPPORT. The overflow tests are exact (40_datapath.md R87) and the readings of the operand forms (R63). -/

namespace Sys2Proof.Machine

theorem addOvf_iff (a b r : Word) : addOvf a b r = true ↔ a.msb = b.msb ∧ r.msb ≠ a.msb := by
  simp [addOvf]

theorem subOvf_iff (a b r : Word) : subOvf a b r = true ↔ a.msb ≠ b.msb ∧ r.msb ≠ a.msb := by
  simp [subOvf]

/-- The signed reading of a word lies in [-2^31, 2^31 - 1] (R16). -/
theorem toInt_range (a : Word) : -2147483648 ≤ a.toInt ∧ a.toInt < 2147483648 := by
  have h1 := BitVec.le_toInt a
  have h2 := BitVec.toInt_lt (x := a)
  simp at h1 h2
  exact ⟨h1, h2⟩

/-- Without AddOvf the sum is the exact signed sum. -/
theorem toInt_add_of_not_ovf (a b : Word) (h : ¬ (a.msb = b.msb ∧ (a + b).msb ≠ a.msb)) :
    (a + b).toInt = a.toInt + b.toInt := by
  simp only [BitVec.msb_eq_toInt, BitVec.toInt_add] at *
  have ha := toInt_range a
  have hb := toInt_range b
  have e := Int.bmod_def (a.toInt + b.toInt) (2 ^ 32)
  simp at *
  split at e <;> (by_cases na : a.toInt < 0 <;> by_cases nb : b.toInt < 0 <;> simp_all <;> omega)

/-- With AddOvf the exact signed sum is not representable. -/
theorem not_representable_of_addOvf (a b : Word) (h : a.msb = b.msb ∧ (a + b).msb ≠ a.msb) :
    ¬ (-2 ^ 31 ≤ a.toInt + b.toInt ∧ a.toInt + b.toInt ≤ 2 ^ 31 - 1) := by
  intro hr
  obtain ⟨h1, h2⟩ := h
  apply h2
  simp only [BitVec.msb_eq_toInt, BitVec.toInt_add] at *
  rw [Int.bmod_eq_of_le (by omega) (by omega)]
  by_cases na : a.toInt < 0 <;> by_cases nb : b.toInt < 0 <;> simp_all <;> omega

/-- Without SubOvf the difference is the exact signed difference. -/
theorem toInt_sub_of_not_ovf (a b : Word) (h : ¬ (a.msb ≠ b.msb ∧ (a - b).msb ≠ a.msb)) :
    (a - b).toInt = a.toInt - b.toInt := by
  simp only [BitVec.msb_eq_toInt, BitVec.toInt_sub] at *
  have ha := toInt_range a
  have hb := toInt_range b
  have e := Int.bmod_def (a.toInt - b.toInt) (2 ^ 32)
  simp at *
  split at e <;> (by_cases na : a.toInt < 0 <;> by_cases nb : b.toInt < 0 <;> simp_all <;> omega)

/-- With SubOvf the exact signed difference is not representable. -/
theorem not_representable_of_subOvf (a b : Word) (h : a.msb ≠ b.msb ∧ (a - b).msb ≠ a.msb) :
    ¬ (-2 ^ 31 ≤ a.toInt - b.toInt ∧ a.toInt - b.toInt ≤ 2 ^ 31 - 1) := by
  intro hr
  obtain ⟨h1, h2⟩ := h
  apply h2
  simp only [BitVec.msb_eq_toInt, BitVec.toInt_sub] at *
  rw [Int.bmod_eq_of_le (by omega) (by omega)]
  by_cases na : a.toInt < 0 <;> by_cases nb : b.toInt < 0 <;> simp_all <;> omega

/-! ### The immediates -/

/-- simm reads as the immediate's signed value. -/
theorem simm_toInt (imm : Imm16) : (simm imm).toInt = imm.toInt := by
  unfold simm
  exact BitVec.toInt_signExtend_of_le (by omega)

theorem simm_msb (imm : Imm16) : (simm imm).msb = imm.msb := by
  rw [BitVec.msb_eq_toInt, simm_toInt, BitVec.msb_eq_toInt]

theorem simm_toNat (imm : Imm16) : ((simm imm).toNat : Int) = imm.toInt % 2 ^ 32 := by
  have h := BitVec.toInt_eq_toNat_cond (simm imm)
  have hr := (simm imm).isLt
  rw [simm_toInt] at h
  split at h <;> omega

/-- zimm reads as the immediate's unsigned value. -/
theorem zimm_toNat (imm : Imm16) : (zimm imm).toNat = imm.toNat := by
  have := imm.isLt
  simp [zimm]
  omega

/-- The effective address is the base plus the signed offset modulo 2^32 (R42). -/
theorem effAddr_toNat (base : Word) (imm : Imm16) :
    ((effAddr base imm).toNat : Int) = (base.toNat + imm.toInt) % 2 ^ 32 := by
  have h := simm_toNat imm
  unfold effAddr
  rw [BitVec.toNat_add]
  push_cast
  omega

/-- boff is four times the signed offset modulo 2^32 (R63). -/
theorem boff_toNat (imm : Imm16) : ((boff imm).toNat : Int) = (4 * imm.toInt) % 2 ^ 32 := by
  have h := simm_toNat imm
  unfold boff
  rw [BitVec.toNat_shiftLeft, Nat.shiftLeft_eq]
  push_cast
  omega

/-- The jump target: the fetch pc's 256 MiB region and four times the index (R63, C1). -/
theorem jtarget_toNat (pc : Word) (index : Imm26) :
    (jtarget pc index).toNat = pc.toNat / 2 ^ 28 * 2 ^ 28 + index.toNat * 4 := by
  have e : jtarget pc index = (pc.extractLsb' 28 4 ++ index ++ 0#2 : BitVec 32) := by
    unfold jtarget
    apply BitVec.eq_of_getLsbD_eq
    intro k hk
    rw [BitVec.getLsbD_or, BitVec.getLsbD_and, BitVec.getLsbD_append, BitVec.getLsbD_append]
    interval_cases k <;> simp
  have h1 := index.isLt
  have h2 := pc.isLt
  rw [e, BitVec.toNat_append, BitVec.toNat_append, ← Nat.shiftLeft_add_eq_or_of_lt (by simp),
    ← Nat.shiftLeft_add_eq_or_of_lt h1]
  simp [Nat.shiftLeft_eq, Nat.shiftRight_eq_div_pow]
  omega

/-! ### Alignment (R25): pc4, branch targets and jump targets stay multiples of 4 -/

theorem pc4_aligned (pc : Word) (h : pc.toNat % 4 = 0) : (pc4 pc).toNat % 4 = 0 := by
  simp [pc4, BitVec.toNat_add]
  omega

theorem branchTarget_aligned (pc : Word) (imm : Imm16) (h : pc.toNat % 4 = 0) :
    (pc4 pc + boff imm).toNat % 4 = 0 := by
  have h1 := pc4_aligned pc h
  have h2 := boff_toNat imm
  rw [BitVec.toNat_add]
  omega

theorem jtarget_aligned (pc : Word) (index : Imm26) : (jtarget pc index).toNat % 4 = 0 := by
  rw [jtarget_toNat]
  omega

end Sys2Proof.Machine
end

