-- ==== Sys2Proof/Laws/Memory.lean ====
section
/-! SUPPORT. The laws of memory (R29, R47, R50): a read after a write, and the canonical form that every operation keeps. -/

namespace Sys2Proof.Machine.Memory

@[simp] theorem read_nil (i : Nat) : Memory.read [] i = 0#32 := rfl

theorem read_cons (k : Nat) (v : Word) (m : Memory) (i : Nat) :
    Memory.read ((k, v) :: m) i = if k = i then v else Memory.read m i := rfl

/-! ### Reading -/

/-- An index no cell of the memory has reads 0. -/
theorem read_of_not_listed (m : Memory) (i : Nat) (h : ∀ c ∈ m, c.1 ≠ i) : Memory.read m i = 0#32 := by
  induction m with
  | nil => rfl
  | cons c m ih =>
    rw [show c = (c.1, c.2) from rfl, read_cons, if_neg (h c (by simp))]
    exact ih fun d hd => h d (by simp [hd])

/-- A listed cell is read back where the indexes rise. -/
theorem read_of_mem (m : Memory) (h : m.Pairwise fun c d => c.1 < d.1) (k : Nat) (v : Word) (hm : (k, v) ∈ m) :
    Memory.read m k = v := by
  induction m with
  | nil => simp at hm
  | cons c m ih =>
    obtain ⟨h1, h2⟩ := List.pairwise_cons.1 h
    rw [show c = (c.1, c.2) from rfl, read_cons]
    rcases List.mem_cons.1 hm with rfl | hm
    · simp
    · have := h1 _ hm
      rw [if_neg (by simp only at this; omega)]
      exact ih h2 hm

theorem read_erase_same (m : Memory) (i : Nat) : Memory.read (m.erase i) i = 0#32 :=
  read_of_not_listed _ _ fun c hc => by simpa using (List.mem_filter.1 hc).2

theorem read_erase_other (m : Memory) (i k : Nat) (h : k ≠ i) : Memory.read (m.erase i) k = Memory.read m k := by
  induction m with
  | nil => rfl
  | cons c m ih =>
    obtain ⟨a, v⟩ := c
    unfold Memory.erase at ih ⊢
    by_cases ha : a = i
    · subst ha
      rw [List.filter_cons_of_neg (by simp), ih, read_cons, if_neg (Ne.symm h)]
    · rw [List.filter_cons_of_pos (by simpa using ha), read_cons, read_cons, ih]

theorem read_insert_same (m : Memory) (i : Nat) (v : Word) (h : ∀ c ∈ m, c.1 ≠ i) : Memory.read (m.insert i v) i = v := by
  induction m with
  | nil => simp [Memory.insert, read_cons]
  | cons c m ih =>
    obtain ⟨k, u⟩ := c
    have hk : k ≠ i := h (k, u) (by simp)
    unfold Memory.insert
    split
    · rw [read_cons, if_pos rfl]
    · rw [read_cons, if_neg hk]
      exact ih fun d hd => h d (by simp [hd])

theorem read_insert_other (m : Memory) (i k : Nat) (v : Word) (h : k ≠ i) :
    Memory.read (m.insert i v) k = Memory.read m k := by
  induction m with
  | nil => simp [Memory.insert, read_cons, Ne.symm h]
  | cons c m ih =>
    obtain ⟨a, u⟩ := c
    unfold Memory.insert
    split
    · rw [read_cons, if_neg (Ne.symm h)]
    · rw [read_cons, read_cons, ih]

/-- A read after a write to the same index gives the word written. -/
@[simp] theorem read_write_same (m : Memory) (i : Nat) (v : Word) : Memory.read (m.write i v) i = v := by
  unfold Memory.write
  split
  · next h => rw [read_erase_same, h]
  · exact read_insert_same _ _ _ fun c hc => by simpa using (List.mem_filter.1 hc).2

/-- A write leaves every other index alone. -/
theorem read_write_other (m : Memory) (i k : Nat) (v : Word) (h : k ≠ i) :
    Memory.read (m.write i v) k = Memory.read m k := by
  unfold Memory.write
  split
  · exact read_erase_other _ _ _ h
  · rw [read_insert_other _ _ _ _ h, read_erase_other _ _ _ h]

theorem read_write (m : Memory) (i k : Nat) (v : Word) :
    Memory.read (m.write i v) k = if k = i then v else Memory.read m k := by
  split
  · next h => rw [h, read_write_same]
  · next h => exact read_write_other _ _ _ _ h

/-! ### The canonical form -/

theorem wf_iff (m : Memory) : m.wf = true ↔ (m.Pairwise fun c d => c.1 < d.1) ∧ ∀ c ∈ m, c.2 ≠ 0#32 := by
  simp [Memory.wf]

@[simp] theorem wf_nil : Memory.wf [] = true := rfl

theorem wf_erase (m : Memory) (i : Nat) (h : m.wf = true) : (m.erase i).wf = true := by
  rw [wf_iff] at h ⊢
  exact ⟨h.1.filter _, fun c hc => h.2 c (List.mem_filter.1 hc).1⟩

theorem mem_insert (m : Memory) (i : Nat) (v : Word) (c : Nat × Word) : c ∈ m.insert i v ↔ c = (i, v) ∨ c ∈ m := by
  induction m with
  | nil => simp [Memory.insert]
  | cons d m ih =>
    unfold Memory.insert
    split
    · simp
    · simp only [List.mem_cons, ih]
      tauto

theorem wf_insert (m : Memory) (i : Nat) (v : Word) (h : m.wf = true) (hv : v ≠ 0#32) (hi : ∀ c ∈ m, c.1 ≠ i) :
    (m.insert i v).wf = true := by
  rw [wf_iff] at h ⊢
  refine ⟨?_, fun c hc => ?_⟩
  · obtain ⟨hp, -⟩ := h
    induction m with
    | nil => simp [Memory.insert]
    | cons d m ih =>
      obtain ⟨h1, h2⟩ := List.pairwise_cons.1 hp
      have hd := hi d (by simp)
      unfold Memory.insert
      split
      · next hlt =>
        refine List.pairwise_cons.2 ⟨fun e he => ?_, hp⟩
        rcases List.mem_cons.1 he with rfl | he
        · exact hlt
        · have := h1 e he
          simp only at hlt this ⊢
          omega
      · next hlt =>
        refine List.pairwise_cons.2 ⟨fun e he => ?_, ih (fun c hc => hi c (by simp [hc])) h2⟩
        rcases (mem_insert _ _ _ _).1 he with rfl | he
        · simp only at hd hlt ⊢
          omega
        · exact h1 e he
  · rcases (mem_insert _ _ _ _).1 hc with rfl | hc
    · exact hv
    · exact h.2 c hc

/-- A write keeps the canonical form. -/
theorem wf_write (m : Memory) (i : Nat) (v : Word) (h : m.wf = true) : (m.write i v).wf = true := by
  unfold Memory.write
  split
  · exact wf_erase _ _ h
  · next hv => exact wf_insert _ _ _ (wf_erase _ _ h) hv fun c hc => by simpa using (List.mem_filter.1 hc).2

theorem below_iff (m : Memory) (n : Nat) : m.below n = true ↔ ∀ c ∈ m, c.1 < n := by
  simp [Memory.below]

@[simp] theorem below_nil (n : Nat) : Memory.below [] n = true := rfl

/-- A write below a bound keeps every listed index below it. -/
theorem below_write (m : Memory) (i : Nat) (v : Word) (n : Nat) (h : m.below n = true) (hi : i < n) :
    (m.write i v).below n = true := by
  rw [below_iff] at h ⊢
  have he : ∀ c ∈ m.erase i, c.1 < n := fun c hc => h c (List.mem_filter.1 hc).1
  unfold Memory.write
  split
  · exact he
  · intro c hc
    rcases (mem_insert _ _ _ _).1 hc with rfl | hc
    · exact hi
    · exact he c hc

/-! ### The loaded program (R220) -/

theorem ofWordsFrom_ge (i : Nat) (ws : List Word) : ∀ c ∈ ofWordsFrom i ws, i ≤ c.1 ∧ c.1 < i + ws.length := by
  induction ws generalizing i with
  | nil => simp [ofWordsFrom]
  | cons w ws ih =>
    intro c hc
    unfold ofWordsFrom at hc
    rw [List.length_cons]
    split at hc
    · have := ih (i + 1) c hc
      omega
    · rcases List.mem_cons.1 hc with rfl | hc
      · simp
      · have := ih (i + 1) c hc
        omega

/-- The loaded program is in canonical form. -/
theorem wf_ofWordsFrom (i : Nat) (ws : List Word) : (ofWordsFrom i ws).wf = true := by
  rw [wf_iff]
  induction ws generalizing i with
  | nil => simp [ofWordsFrom]
  | cons w ws ih =>
    unfold ofWordsFrom
    split
    · exact ih (i + 1)
    · next hw =>
      refine ⟨List.pairwise_cons.2 ⟨fun c hc => ?_, (ih (i + 1)).1⟩, ?_⟩
      · have := ofWordsFrom_ge _ _ c hc
        simp only
        omega
      · intro c hc
        rcases List.mem_cons.1 hc with rfl | hc
        · exact hw
        · exact (ih (i + 1)).2 c hc

theorem below_ofWordsFrom (ws : List Word) : (ofWordsFrom 0 ws).below ws.length = true := by
  rw [below_iff]
  intro c hc
  have := ofWordsFrom_ge _ _ c hc
  omega

/-- Record k is IMEM[k]; past the program nothing is listed. -/
theorem read_ofWordsFrom (i k : Nat) (ws : List Word) : Memory.read (ofWordsFrom i ws) (i + k) = ws.getD k 0#32 := by
  induction ws generalizing i k with
  | nil => simp [ofWordsFrom]
  | cons w ws ih =>
    have hlow : Memory.read (ofWordsFrom (i + 1) ws) i = 0#32 :=
      read_of_not_listed _ _ fun c hc => by have := ofWordsFrom_ge _ _ c hc; omega
    unfold ofWordsFrom
    cases k with
    | zero =>
      split
      · next hw => simp [hlow, hw]
      · simp [read_cons]
    | succ k =>
      have := ih (i + 1) k
      rw [show i + 1 + k = i + (k + 1) by omega] at this
      split
      · simpa using this
      · rw [read_cons, if_neg (by omega)]
        simpa using this

end Sys2Proof.Machine.Memory
end

