-- ==== Sys2Proof/Laws/State.lean ====
section
/-! SUPPORT. One lemma per field per update of the state, and the register file's laws (R18, R20, R92). -/

namespace Sys2Proof.Machine.State

variable (s : State)

/-! ### setReg -/

theorem setReg_x (r : Reg) (v : Word) : (s.setReg r v).x = s.x.set r.toNat v r.isLt := rfl
@[simp] theorem setReg_pc (r : Reg) (v : Word) : (s.setReg r v).pc = s.pc := rfl
@[simp] theorem setReg_dmem (r : Reg) (v : Word) : (s.setReg r v).dmem = s.dmem := rfl
@[simp] theorem setReg_imem (r : Reg) (v : Word) : (s.setReg r v).imem = s.imem := rfl
@[simp] theorem setReg_progLen (r : Reg) (v : Word) : (s.setReg r v).progLen = s.progLen := rfl
@[simp] theorem setReg_stats (r : Reg) (v : Word) : (s.setReg r v).stats = s.stats := rfl
@[simp] theorem setReg_raised (r : Reg) (v : Word) : (s.setReg r v).raised = s.raised := rfl
@[simp] theorem setReg_cfg (r : Reg) (v : Word) : (s.setReg r v).cfg = s.cfg := rfl

/-! ### setPc -/

@[simp] theorem setPc_x (p : Word) : (s.setPc p).x = s.x := rfl
@[simp] theorem setPc_pc (p : Word) : (s.setPc p).pc = p := rfl
@[simp] theorem setPc_dmem (p : Word) : (s.setPc p).dmem = s.dmem := rfl
@[simp] theorem setPc_imem (p : Word) : (s.setPc p).imem = s.imem := rfl
@[simp] theorem setPc_progLen (p : Word) : (s.setPc p).progLen = s.progLen := rfl
@[simp] theorem setPc_stats (p : Word) : (s.setPc p).stats = s.stats := rfl
@[simp] theorem setPc_raised (p : Word) : (s.setPc p).raised = s.raised := rfl
@[simp] theorem setPc_cfg (p : Word) : (s.setPc p).cfg = s.cfg := rfl

/-! ### store -/

@[simp] theorem store_x (i : Nat) (v : Word) : (s.store i v).x = s.x := rfl
@[simp] theorem store_pc (i : Nat) (v : Word) : (s.store i v).pc = s.pc := rfl
@[simp] theorem store_dmem (i : Nat) (v : Word) : (s.store i v).dmem = s.dmem.write i v := rfl
@[simp] theorem store_imem (i : Nat) (v : Word) : (s.store i v).imem = s.imem := rfl
@[simp] theorem store_progLen (i : Nat) (v : Word) : (s.store i v).progLen = s.progLen := rfl
@[simp] theorem store_stats (i : Nat) (v : Word) : (s.store i v).stats = s.stats := rfl
@[simp] theorem store_raised (i : Nat) (v : Word) : (s.store i v).raised = s.raised := rfl
@[simp] theorem store_cfg (i : Nat) (v : Word) : (s.store i v).cfg = s.cfg := rfl

/-! ### retire -/

@[simp] theorem retire_x (k : Kind) : (s.retire k).x = s.x := rfl
@[simp] theorem retire_pc (k : Kind) : (s.retire k).pc = s.pc := rfl
@[simp] theorem retire_dmem (k : Kind) : (s.retire k).dmem = s.dmem := rfl
@[simp] theorem retire_imem (k : Kind) : (s.retire k).imem = s.imem := rfl
@[simp] theorem retire_progLen (k : Kind) : (s.retire k).progLen = s.progLen := rfl
@[simp] theorem retire_stats (k : Kind) : (s.retire k).stats = (s.stats.classify k).tick := rfl
@[simp] theorem retire_raised (k : Kind) : (s.retire k).raised = s.raised := rfl
@[simp] theorem retire_cfg (k : Kind) : (s.retire k).cfg = s.cfg := rfl

/-! ### recordFault -/

@[simp] theorem recordFault_x (f : Fault) : (s.recordFault f).x = s.x := rfl
@[simp] theorem recordFault_pc (f : Fault) : (s.recordFault f).pc = s.pc := rfl
@[simp] theorem recordFault_dmem (f : Fault) : (s.recordFault f).dmem = s.dmem := rfl
@[simp] theorem recordFault_imem (f : Fault) : (s.recordFault f).imem = s.imem := rfl
@[simp] theorem recordFault_progLen (f : Fault) : (s.recordFault f).progLen = s.progLen := rfl
@[simp] theorem recordFault_stats (f : Fault) : (s.recordFault f).stats = s.stats.afterFault s.pc := rfl
@[simp] theorem recordFault_raised (f : Fault) : (s.recordFault f).raised = some f := rfl
@[simp] theorem recordFault_cfg (f : Fault) : (s.recordFault f).cfg = s.cfg := rfl

/-! ### Loading a program -/

@[simp] theorem loadProgram_x (ws : List Word) : (s.loadProgram ws).x = s.x := rfl
@[simp] theorem loadProgram_pc (ws : List Word) : (s.loadProgram ws).pc = s.pc := rfl
@[simp] theorem loadProgram_dmem (ws : List Word) : (s.loadProgram ws).dmem = s.dmem := rfl
@[simp] theorem loadProgram_imem (ws : List Word) : (s.loadProgram ws).imem = Memory.ofWordsFrom 0 ws := rfl
@[simp] theorem loadProgram_progLen (ws : List Word) : (s.loadProgram ws).progLen = ws.length := rfl
@[simp] theorem loadProgram_stats (ws : List Word) : (s.loadProgram ws).stats = s.stats := rfl
@[simp] theorem loadProgram_raised (ws : List Word) : (s.loadProgram ws).raised = s.raised := rfl
@[simp] theorem loadProgram_cfg (ws : List Word) : (s.loadProgram ws).cfg = s.cfg := rfl

@[simp] theorem withFetchWord_x (n w : Nat) : (s.withFetchWord n w).x = s.x := rfl
@[simp] theorem withFetchWord_pc (n w : Nat) : (s.withFetchWord n w).pc = s.pc := rfl
@[simp] theorem withFetchWord_dmem (n w : Nat) : (s.withFetchWord n w).dmem = s.dmem := rfl
@[simp] theorem withFetchWord_imem (n w : Nat) : (s.withFetchWord n w).imem = s.imem.write (s.pc.toNat / 4) (BitVec.ofNat 32 (w % 2 ^ n)) := rfl
@[simp] theorem withFetchWord_progLen (n w : Nat) : (s.withFetchWord n w).progLen = max s.progLen (s.pc.toNat / 4 + 1) := rfl
@[simp] theorem withFetchWord_stats (n w : Nat) : (s.withFetchWord n w).stats = s.stats := rfl
@[simp] theorem withFetchWord_raised (n w : Nat) : (s.withFetchWord n w).raised = s.raised := rfl
@[simp] theorem withFetchWord_cfg (n w : Nat) : (s.withFetchWord n w).cfg = s.cfg := rfl

/-! ### The register file -/

/-- A register reads the last value written to it, register 0 like any other (R21). -/
theorem reg_setReg (r q : Reg) (v : Word) : (s.setReg r v).reg q = if q = r then v else s.reg q := by
  unfold reg setReg
  rw [Vector.getElem_set]
  by_cases h : q = r
  · subst h
    simp
  · rw [if_neg h, if_neg fun h' => h (BitVec.eq_of_toNat_eq h'.symm)]

@[simp] theorem reg_setReg_same (r : Reg) (v : Word) : (s.setReg r v).reg r = v := by
  rw [reg_setReg, if_pos rfl]

theorem reg_setReg_other (r q : Reg) (v : Word) (h : q ≠ r) : (s.setReg r v).reg q = s.reg q := by
  rw [reg_setReg, if_neg h]

@[simp] theorem reg_setPc (p : Word) (q : Reg) : (s.setPc p).reg q = s.reg q := rfl
@[simp] theorem reg_store (i : Nat) (v : Word) (q : Reg) : (s.store i v).reg q = s.reg q := rfl
@[simp] theorem reg_retire (k : Kind) (q : Reg) : (s.retire k).reg q = s.reg q := rfl
@[simp] theorem reg_recordFault (f : Fault) (q : Reg) : (s.recordFault f).reg q = s.reg q := rfl
@[simp] theorem reg_loadProgram (ws : List Word) (q : Reg) : (s.loadProgram ws).reg q = s.reg q := rfl
@[simp] theorem reg_withFetchWord (n w : Nat) (q : Reg) : (s.withFetchWord n w).reg q = s.reg q := rfl

/-- After boot x[31] is SENTINEL and every other register is its INIT_REGS value (R11, R34). -/
theorem reg_boot (c : Config) (q : Reg) :
    (State.boot c).reg q = if h : q.toNat < 31 then c.initRegs[q.toNat] else sentinel := by
  unfold reg boot
  rw [Vector.getElem_push]

/-! ### The run status -/

theorem status_of_raised (f : Fault) (h : s.raised = some f) : s.status = .faulted f := by
  simp [status, h]

theorem status_of_sentinel (h : s.raised = none) (hp : s.pc = sentinel) : s.status = .halted := by
  simp [status, h, hp]

theorem status_of_running (h : s.raised = none) (hp : s.pc ≠ sentinel) : s.status = .running := by
  simp [status, h, hp]

theorem status_running_iff : s.status = .running ↔ s.raised = none ∧ s.pc ≠ sentinel := by
  unfold status
  split <;> rename_i h <;> simp [h]

end Sys2Proof.Machine.State
end

