-- ==== Sys2Proof/Laws/Ops.lean ====
section
/-! SUPPORT. One lemma per shared operation that says once what it can do. -/

namespace Sys2Proof.Machine

/-! ### The bounds check (R45) -/

theorem msb_iff_ge (v : Word) : v.msb = true ↔ 2 ^ 31 ≤ v.toNat := by
  rw [BitVec.msb_eq_decide]
  simp

/-- Everything CheckData can answer. -/
theorem checkData_cases (s : State) (ea : Word) :
    (2 ^ 31 ≤ ea.toNat ∧ checkData s ea = .error (.memoryBounds (ea.toInt.tdiv 4) s.pc)) ∨
    (ea.toNat < 2 ^ 31 ∧ s.cfg.memWords ≤ ea.toNat / 4 ∧
      checkData s ea = .error (.memoryBounds ((ea.toNat / 4 : Nat) : Int) s.pc)) ∨
    (ea.toNat < 2 ^ 31 ∧ ea.toNat / 4 < s.cfg.memWords ∧ checkData s ea = .ok (ea.toNat / 4)) := by
  unfold checkData
  by_cases h : ea.msb = true
  · exact .inl ⟨(msb_iff_ge ea).1 h, by rw [if_pos h]⟩
  · have hlt : ea.toNat < 2 ^ 31 := by
      have := mt (msb_iff_ge ea).2 h
      omega
    by_cases hm : s.cfg.memWords ≤ ea.toNat / 4
    · exact .inr (.inl ⟨hlt, hm, by rw [if_neg h, if_pos hm]⟩)
    · exact .inr (.inr ⟨hlt, by omega, by rw [if_neg h, if_neg hm]⟩)

/-- A legal access reaches one index below MEM_WORDS. -/
theorem checkData_ok (s : State) (ea : Word) (i : Nat) (h : checkData s ea = .ok i) :
    i = ea.toNat / 4 ∧ ea.toNat < 2 ^ 31 ∧ i < s.cfg.memWords := by
  rcases checkData_cases s ea with ⟨-, h'⟩ | ⟨-, -, h'⟩ | ⟨h1, h2, h'⟩
  · simp [h'] at h
  · simp [h'] at h
  · rw [h'] at h
    injection h with h
    subst h
    exact ⟨rfl, h1, h2⟩

/-- CheckData raises only MemoryBoundsFault, with the pc of the instruction (R202). -/
theorem checkData_error (s : State) (ea : Word) (f : Fault) (h : checkData s ea = .error f) :
    ∃ i, f = .memoryBounds i s.pc := by
  rcases checkData_cases s ea with ⟨-, h'⟩ | ⟨-, -, h'⟩ | ⟨-, -, h'⟩
  · rw [h'] at h
    injection h with h
    exact ⟨_, h.symm⟩
  · rw [h'] at h
    injection h with h
    exact ⟨_, h.symm⟩
  · simp [h'] at h

/-! ### The fetch (R81) -/

/-- Everything the fetch can answer. -/
theorem fetch_cases (s : State) :
    (s.pc.toNat % 4 ≠ 0 ∧ fetch s = .error (.misalignedFetch s.pc)) ∨
    (s.pc.toNat % 4 = 0 ∧ s.progLen ≤ s.pc.toNat / 4 ∧ fetch s = .error (.fetchOutOfProgram s.pc)) ∨
    (s.pc.toNat % 4 = 0 ∧ s.pc.toNat / 4 < s.progLen ∧ fetch s = .ok (s.imem.read (s.pc.toNat / 4))) := by
  unfold fetch
  by_cases h : s.pc.toNat % 4 = 0
  · by_cases hp : s.progLen ≤ s.pc.toNat / 4
    · exact .inr (.inl ⟨h, hp, by rw [if_neg (by simpa using h), if_pos hp]⟩)
    · exact .inr (.inr ⟨h, by omega, by rw [if_neg (by simpa using h), if_neg hp]⟩)
  · exact .inl ⟨h, by rw [if_pos h]⟩

theorem fetch_of_program (s : State) (h : s.pc.toNat % 4 = 0) (hp : s.pc.toNat / 4 < s.progLen) :
    fetch s = .ok (s.imem.read (s.pc.toNat / 4)) := by
  unfold fetch
  rw [if_neg (by simpa using h), if_neg (by omega)]

theorem fetch_of_misaligned (s : State) (h : s.pc.toNat % 4 ≠ 0) : fetch s = .error (.misalignedFetch s.pc) := by
  unfold fetch
  rw [if_pos h]

theorem fetch_past_program (s : State) (h : s.pc.toNat % 4 = 0) (hp : s.progLen ≤ s.pc.toNat / 4) :
    fetch s = .error (.fetchOutOfProgram s.pc) := by
  unfold fetch
  rw [if_neg (by simpa using h), if_pos hp]

/-! ### The ways an instruction completes -/

/-- What a completed cycle can have done: at most one register write, or one store, a new pc, and the counters (R98). -/
inductive Effect
  | reg (d : Reg) (v : Word)
  | store (i : Nat) (v : Word)
  | none
  deriving DecidableEq, Repr

/-- The state after a completed cycle of the given effect. -/
def Effect.apply (e : Effect) (target : Word) (k : Kind) (s : State) : State :=
  match e with
  | .reg d v => ((s.setReg d v).setPc target).retire k
  | .store i v => ((s.store i v).setPc target).retire k
  | .none => (s.setPc target).retire k

theorem finishReg_eq (k : Kind) (d : Reg) (r : Word) (s : State) :
    finishReg k d r s = .next ((Effect.reg d r).apply (pc4 s.pc) k s) := rfl

theorem finishStore_eq (i : Nat) (v : Word) (s : State) :
    finishStore i v s = .next ((Effect.store i v).apply (pc4 s.pc) .mem s) := rfl

theorem finishPc_eq (k : Kind) (target : Word) (s : State) :
    finishPc k target s = .next (Effect.none.apply target k s) := rfl

theorem finishLink_eq (k : Kind) (target : Word) (s : State) :
    finishLink k target s = .next ((Effect.reg linkReg (pc4 s.pc)).apply target k s) := rfl

section
variable (e : Effect) (target : Word) (k : Kind) (s : State)

@[simp] theorem Effect.apply_pc : (e.apply target k s).pc = target := by cases e <;> rfl
@[simp] theorem Effect.apply_imem : (e.apply target k s).imem = s.imem := by cases e <;> rfl
@[simp] theorem Effect.apply_progLen : (e.apply target k s).progLen = s.progLen := by cases e <;> rfl
@[simp] theorem Effect.apply_raised : (e.apply target k s).raised = s.raised := by cases e <;> rfl
@[simp] theorem Effect.apply_cfg : (e.apply target k s).cfg = s.cfg := by cases e <;> rfl
@[simp] theorem Effect.apply_stats : (e.apply target k s).stats = (s.stats.classify k).tick := by cases e <;> rfl

theorem Effect.apply_fixed : Fixed s (e.apply target k s) :=
  ⟨fun _ => by rw [Effect.apply_imem], e.apply_progLen _ _ _, e.apply_raised _ _ _, e.apply_cfg _ _ _⟩

theorem Effect.apply_reg (q : Reg) :
    (e.apply target k s).reg q = match e with
      | .reg d v => if q = d then v else s.reg q
      | _ => s.reg q := by
  cases e with
  | reg d v => exact State.reg_setReg s d q v
  | store i v => rfl
  | none => rfl

theorem Effect.apply_dmem_read (a : Nat) :
    (e.apply target k s).dmem.read a = match e with
      | .store i v => if a = i then v else s.dmem.read a
      | _ => s.dmem.read a := by
  cases e with
  | reg d v => rfl
  | store i v => exact Memory.read_write s.dmem i a v
  | none => rfl

end

/-- A register write's value and frame. -/
theorem Effect.reg_value (d : Reg) (v target : Word) (k : Kind) (s : State) :
    ((Effect.reg d v).apply target k s).reg d = v := by
  rw [Effect.apply_reg]
  simp

theorem Effect.reg_writesOnly (d : Reg) (v target : Word) (k : Kind) (s : State) :
    WritesOnly d s ((Effect.reg d v).apply target k s) :=
  ⟨fun r h => by rw [Effect.apply_reg]; simp [h], fun i => by rw [Effect.apply_dmem_read], Effect.apply_fixed _ _ _ _⟩

/-- A store's value and frame. -/
theorem Effect.store_value (i : Nat) (v target : Word) (k : Kind) (s : State) :
    ((Effect.store i v).apply target k s).dmem.read i = v := by
  rw [Effect.apply_dmem_read]
  simp

theorem Effect.store_storesOnly (i : Nat) (v target : Word) (k : Kind) (s : State) :
    StoresOnly i s ((Effect.store i v).apply target k s) :=
  ⟨fun r => by rw [Effect.apply_reg], fun a h => by rw [Effect.apply_dmem_read]; simp [h], Effect.apply_fixed _ _ _ _⟩

/-- A pure jump's frame. -/
theorem Effect.none_movesOnly (target : Word) (k : Kind) (s : State) : MovesOnly s (Effect.none.apply target k s) :=
  ⟨fun r => by rw [Effect.apply_reg], fun i => by rw [Effect.apply_dmem_read], Effect.apply_fixed _ _ _ _⟩

/-- finishReg completes with the value written, the pc advanced and nothing else changed. -/
theorem finishReg_completes (P : Word → Prop) (d : Reg) (v : Word) (k : Kind) (s : State) (h : P v) :
    Completes (finishReg k d v s) fun t =>
      P (t.reg d) ∧ t.pc = s.pc + 4#32 ∧ WritesOnly d s t ∧ t.stats = (s.stats.classify k).tick :=
  ⟨_, finishReg_eq k d v s, by rw [Effect.reg_value]; exact h, by simp [pc4], Effect.reg_writesOnly _ _ _ _ _, by simp⟩

/-! ### The counters (R97, R98) -/

theorem counted_rType (s t : State) (h : t.stats = (s.stats.classify .rType).tick) : Counted s t 1 0 0 0 0 := h
theorem counted_iType (s t : State) (h : t.stats = (s.stats.classify .iType).tick) : Counted s t 0 1 0 0 0 := h
theorem counted_branch (s t : State) (h : t.stats = (s.stats.classify .branch).tick) : Counted s t 0 1 0 1 0 := h
theorem counted_mem (s t : State) (h : t.stats = (s.stats.classify .mem).tick) : Counted s t 0 1 0 0 1 := h
theorem counted_jType (s t : State) (h : t.stats = (s.stats.classify .jType).tick) : Counted s t 0 0 1 0 0 := h

/-- A completed cycle adds one to cycles and to exactly one class. -/
theorem classify_tick_counted (st : Statistics) (k : Kind) (h : st.cycles = st.rType + st.iType + st.jType) :
    (st.classify k).tick.cycles = (st.classify k).tick.rType + (st.classify k).tick.iType + (st.classify k).tick.jType := by
  cases k <;> simp [Statistics.classify, Statistics.tick] <;> omega

theorem classify_tick_subcounts (st : Statistics) (k : Kind) (h : st.branch + st.mem ≤ st.iType) :
    (st.classify k).tick.branch + (st.classify k).tick.mem ≤ (st.classify k).tick.iType := by
  cases k <;> simp [Statistics.classify, Statistics.tick] <;> omega

end Sys2Proof.Machine
end

