-- ==== Sys2Proof/Laws/PerInstr.lean ====
section
/-! SUPPORT. Facts about instructions as syntax, one lemma per constructor. -/

namespace Sys2Proof.Laws.RoundTrip

/-- The decoder reads back the word the encoder writes, every operand and every ignored bit included. -/
def Statement (i : Instr) : Prop := decode (encode i) = .ok i

theorem add (rs rt rd ign : Reg) : Statement (.add rs rt rd ign) := by
  simp [Statement, encode, decode, decodeFunc,
    opcodeOf_encodeR, funcOf_encodeR, rsOf_encodeR, rtOf_encodeR, rdOf_encodeR, shamtOf_encodeR]

theorem addu (rs rt rd ign : Reg) : Statement (.addu rs rt rd ign) := by
  simp [Statement, encode, decode, decodeFunc,
    opcodeOf_encodeR, funcOf_encodeR, rsOf_encodeR, rtOf_encodeR, rdOf_encodeR, shamtOf_encodeR]

theorem sub (rs rt rd ign : Reg) : Statement (.sub rs rt rd ign) := by
  simp [Statement, encode, decode, decodeFunc,
    opcodeOf_encodeR, funcOf_encodeR, rsOf_encodeR, rtOf_encodeR, rdOf_encodeR, shamtOf_encodeR]

theorem subu (rs rt rd ign : Reg) : Statement (.subu rs rt rd ign) := by
  simp [Statement, encode, decode, decodeFunc,
    opcodeOf_encodeR, funcOf_encodeR, rsOf_encodeR, rtOf_encodeR, rdOf_encodeR, shamtOf_encodeR]

theorem and (rs rt rd ign : Reg) : Statement (.and rs rt rd ign) := by
  simp [Statement, encode, decode, decodeFunc,
    opcodeOf_encodeR, funcOf_encodeR, rsOf_encodeR, rtOf_encodeR, rdOf_encodeR, shamtOf_encodeR]

theorem or (rs rt rd ign : Reg) : Statement (.or rs rt rd ign) := by
  simp [Statement, encode, decode, decodeFunc,
    opcodeOf_encodeR, funcOf_encodeR, rsOf_encodeR, rtOf_encodeR, rdOf_encodeR, shamtOf_encodeR]

theorem nor (rs rt rd ign : Reg) : Statement (.nor rs rt rd ign) := by
  simp [Statement, encode, decode, decodeFunc,
    opcodeOf_encodeR, funcOf_encodeR, rsOf_encodeR, rtOf_encodeR, rdOf_encodeR, shamtOf_encodeR]

theorem slt (rs rt rd ign : Reg) : Statement (.slt rs rt rd ign) := by
  simp [Statement, encode, decode, decodeFunc,
    opcodeOf_encodeR, funcOf_encodeR, rsOf_encodeR, rtOf_encodeR, rdOf_encodeR, shamtOf_encodeR]

theorem sltu (rs rt rd ign : Reg) : Statement (.sltu rs rt rd ign) := by
  simp [Statement, encode, decode, decodeFunc,
    opcodeOf_encodeR, funcOf_encodeR, rsOf_encodeR, rtOf_encodeR, rdOf_encodeR, shamtOf_encodeR]

theorem sll (ign rt rd shamt : Reg) : Statement (.sll ign rt rd shamt) := by
  simp [Statement, encode, decode, decodeFunc,
    opcodeOf_encodeR, funcOf_encodeR, rsOf_encodeR, rtOf_encodeR, rdOf_encodeR, shamtOf_encodeR]

theorem srl (ign rt rd shamt : Reg) : Statement (.srl ign rt rd shamt) := by
  simp [Statement, encode, decode, decodeFunc,
    opcodeOf_encodeR, funcOf_encodeR, rsOf_encodeR, rtOf_encodeR, rdOf_encodeR, shamtOf_encodeR]

theorem jr (rs : Reg) (ign : BitVec 15) : Statement (.jr rs ign) := by
  simp [Statement, encode, decode, decodeFunc,
    opcodeOf_encodeJumpReg, funcOf_encodeJumpReg, rsOf_encodeJumpReg, ignoredOf_encodeJumpReg]

theorem jalr (rs : Reg) (ign : BitVec 15) : Statement (.jalr rs ign) := by
  simp [Statement, encode, decode, decodeFunc,
    opcodeOf_encodeJumpReg, funcOf_encodeJumpReg, rsOf_encodeJumpReg, ignoredOf_encodeJumpReg]

theorem addi (rs rt : Reg) (imm : Imm16) : Statement (.addi rs rt imm) := by
  simp [Statement, encode, decode, opcodeOf_encodeI, rsOf_encodeI, rtOf_encodeI, imm16Of_encodeI]

theorem addiu (rs rt : Reg) (imm : Imm16) : Statement (.addiu rs rt imm) := by
  simp [Statement, encode, decode, opcodeOf_encodeI, rsOf_encodeI, rtOf_encodeI, imm16Of_encodeI]

theorem andi (rs rt : Reg) (imm : Imm16) : Statement (.andi rs rt imm) := by
  simp [Statement, encode, decode, opcodeOf_encodeI, rsOf_encodeI, rtOf_encodeI, imm16Of_encodeI]

theorem ori (rs rt : Reg) (imm : Imm16) : Statement (.ori rs rt imm) := by
  simp [Statement, encode, decode, opcodeOf_encodeI, rsOf_encodeI, rtOf_encodeI, imm16Of_encodeI]

theorem lui (ign rt : Reg) (imm : Imm16) : Statement (.lui ign rt imm) := by
  simp [Statement, encode, decode, opcodeOf_encodeI, rsOf_encodeI, rtOf_encodeI, imm16Of_encodeI]

theorem slti (rs rt : Reg) (imm : Imm16) : Statement (.slti rs rt imm) := by
  simp [Statement, encode, decode, opcodeOf_encodeI, rsOf_encodeI, rtOf_encodeI, imm16Of_encodeI]

theorem sltiu (rs rt : Reg) (imm : Imm16) : Statement (.sltiu rs rt imm) := by
  simp [Statement, encode, decode, opcodeOf_encodeI, rsOf_encodeI, rtOf_encodeI, imm16Of_encodeI]

theorem lw (rs rt : Reg) (imm : Imm16) : Statement (.lw rs rt imm) := by
  simp [Statement, encode, decode, opcodeOf_encodeI, rsOf_encodeI, rtOf_encodeI, imm16Of_encodeI]

theorem sw (rs rt : Reg) (imm : Imm16) : Statement (.sw rs rt imm) := by
  simp [Statement, encode, decode, opcodeOf_encodeI, rsOf_encodeI, rtOf_encodeI, imm16Of_encodeI]

theorem beq (rs rt : Reg) (imm : Imm16) : Statement (.beq rs rt imm) := by
  simp [Statement, encode, decode, opcodeOf_encodeI, rsOf_encodeI, rtOf_encodeI, imm16Of_encodeI]

theorem bne (rs rt : Reg) (imm : Imm16) : Statement (.bne rs rt imm) := by
  simp [Statement, encode, decode, opcodeOf_encodeI, rsOf_encodeI, rtOf_encodeI, imm16Of_encodeI]

theorem j (index : Imm26) : Statement (.j index) := by
  simp [Statement, encode, decode, opcodeOf_encodeJ, imm26Of_encodeJ]

theorem jal (index : Imm26) : Statement (.jal index) := by
  simp [Statement, encode, decode, opcodeOf_encodeJ, imm26Of_encodeJ]

end Sys2Proof.Laws.RoundTrip
end

