-- ==== Sys2Proof/Laws/Step.lean ====
section
/-! SUPPORT. What exec and step can answer, said once: a completed instruction is one Effect, and a step is a stop or the
fetched word's meaning. -/

namespace Sys2Proof.Machine

/-- The class of an instruction for the statistics (R97). -/
def kindOf : Instr → Kind
  | .add .. | .addu .. | .sub .. | .subu .. | .and .. | .or .. | .nor .. | .slt .. | .sltu .. | .sll .. | .srl .. => .rType
  | .jr .. | .jalr .. => .rType
  | .addi .. | .addiu .. | .andi .. | .ori .. | .lui .. | .slti .. | .sltiu .. => .iType
  | .lw .. | .sw .. => .mem
  | .beq .. | .bne .. => .branch
  | .j .. | .jal .. => .jType

/-- A register write of the instruction's destination, or a store of x[rt] below MEM_WORDS by sw, or neither. -/
def Allowed (i : Instr) (s : State) (e : Effect) : Prop :=
  match e with
  | .reg d _ => destination i = some d
  | .store a v => a < s.cfg.memWords ∧ ∃ rs rt imm, i = .sw rs rt imm ∧ v = s.reg rt
  | .none => destination i = none

/-- Where the pc may go: to pc4, to a branch or jump target, or to what jr or jalr loads. -/
def Lands (i : Instr) (s : State) (target : Word) : Prop :=
  target = pc4 s.pc ∨ (∃ imm, target = pc4 s.pc + boff imm) ∨ (∃ index, target = jtarget s.pc index) ∨
    (∃ rs ign, i = .jr rs ign) ∨ ∃ rs ign, i = .jalr rs ign

/-- Everything exec can answer with a next state. -/
theorem exec_next_cases (i : Instr) (s t : State) (h : exec i s = .next t) :
    ∃ e target, t = Effect.apply e target (kindOf i) s ∧ Allowed i s e ∧ Lands i s target := by
  cases i
  case add rs rt rd ign =>
    simp only [exec, execAdd, raise, finishReg_eq] at h
    split at h <;> cases h
    exact ⟨_, _, rfl, rfl, .inl rfl⟩
  case sub rs rt rd ign =>
    simp only [exec, execSub, raise, finishReg_eq] at h
    split at h <;> cases h
    exact ⟨_, _, rfl, rfl, .inl rfl⟩
  case addi rs rt imm =>
    simp only [exec, execAddi, raise, finishReg_eq] at h
    split at h <;> cases h
    exact ⟨_, _, rfl, rfl, .inl rfl⟩
  case lw rs rt imm =>
    simp only [exec, execLw, raise, finishReg_eq] at h
    split at h <;> cases h
    exact ⟨_, _, rfl, rfl, .inl rfl⟩
  case sw rs rt imm =>
    simp only [exec, execSw, raise, finishStore_eq] at h
    split at h <;> cases h
    next hc => exact ⟨_, _, rfl, ⟨(checkData_ok _ _ _ hc).2.2, rs, rt, imm, rfl, rfl⟩, .inl rfl⟩
  case beq rs rt imm =>
    cases h
    refine ⟨.none, _, rfl, rfl, ?_⟩
    split
    · exact .inr (.inl ⟨imm, rfl⟩)
    · exact .inl rfl
  case bne rs rt imm =>
    cases h
    refine ⟨.none, _, rfl, rfl, ?_⟩
    split
    · exact .inr (.inl ⟨imm, rfl⟩)
    · exact .inl rfl
  case j index =>
    cases h
    exact ⟨.none, _, rfl, rfl, .inr (.inr (.inl ⟨index, rfl⟩))⟩
  case jal index =>
    cases h
    exact ⟨.reg linkReg _, _, rfl, rfl, .inr (.inr (.inl ⟨index, rfl⟩))⟩
  case jr rs ign =>
    cases h
    exact ⟨.none, _, rfl, rfl, .inr (.inr (.inr (.inl ⟨rs, ign, rfl⟩)))⟩
  case jalr rs ign =>
    simp only [exec, execJalr, raise, finishLink_eq] at h
    split at h
    · split at h <;> cases h <;> exact ⟨_, _, rfl, rfl, .inr (.inr (.inr (.inr ⟨rs, ign, rfl⟩)))⟩
    · cases h
      exact ⟨_, _, rfl, rfl, .inr (.inr (.inr (.inr ⟨rs, ign, rfl⟩)))⟩
  all_goals
    cases h
    exact ⟨.reg _ _, _, rfl, rfl, .inl rfl⟩

/-- exec never refuses: every instruction has its meaning. -/
theorem exec_ne_refused (i : Instr) (s : State) (r : Refusal) : exec i s ≠ .refused r := by
  intro h
  cases i
  case add => simp only [exec, execAdd, raise, finishReg_eq] at h; split at h <;> cases h
  case sub => simp only [exec, execSub, raise, finishReg_eq] at h; split at h <;> cases h
  case addi => simp only [exec, execAddi, raise, finishReg_eq] at h; split at h <;> cases h
  case lw => simp only [exec, execLw, raise, finishReg_eq] at h; split at h <;> cases h
  case sw => simp only [exec, execSw, raise, finishStore_eq] at h; split at h <;> cases h
  case jalr =>
    simp only [exec, execJalr, raise, finishLink_eq] at h
    split at h
    · split at h <;> cases h
    · cases h
  all_goals cases h

/-- Everything the meaning of an Invalid word can answer (R190). -/
theorem execInvalid_cases (w : Word) (s : State) :
    (s.cfg.invalidPolicy = .fault ∧ execInvalid w s = .fault (.invalidInstruction s.pc w)) ∨
    (s.cfg.invalidPolicy = .nop ∧ execInvalid w s = .next (Effect.none.apply (pc4 s.pc) (invalidKind w) s)) := by
  unfold execInvalid
  cases s.cfg.invalidPolicy
  · exact .inr ⟨rfl, rfl⟩
  · exact .inl ⟨rfl, rfl⟩

/-! ### The step -/

theorem step_of_raised (s : State) (f : Fault) (h : s.raised = some f) : step s = .fault f := by
  simp [step, h, raise]

theorem step_of_sentinel (s : State) (h : s.raised = none) (hp : s.pc = sentinel) : step s = .refused .halted := by
  simp [step, h, hp]

theorem step_of_running (s : State) (h : s.raised = none) (hp : s.pc ≠ sentinel) :
    step s = match fetch s with
      | .error f => .fault f
      | .ok w => execWord w s := by
  unfold step
  rw [h]
  simp only [if_neg hp]
  rfl

/-- A running step with pc in the program runs the word at pc (R98). -/
theorem step_of_program (s : State) (h : s.raised = none) (hp : s.pc ≠ sentinel) (ha : s.pc.toNat % 4 = 0)
    (hl : s.pc.toNat / 4 < s.progLen) : step s = execWord (s.imem.read (s.pc.toNat / 4)) s := by
  rw [step_of_running s h hp, fetch_of_program s ha hl]

theorem execWord_of_decode (w : Word) (s : State) (i : Instr) (h : decode w = .ok i) : execWord w s = exec i s := by
  simp [execWord, h]

theorem execWord_of_reject (w : Word) (s : State) (r : DecodeReject) (h : decode w = .error r) :
    execWord w s = execInvalid w s := by
  simp [execWord, h]

/-- Everything a step that answers a next state did: the machine ran, and the word at pc is an instruction that completed or
an Invalid word under NOP. -/
theorem step_next_cases (s t : State) (h : step s = .next t) :
    s.raised = none ∧ s.pc ≠ sentinel ∧ s.pc.toNat % 4 = 0 ∧ s.pc.toNat / 4 < s.progLen ∧
    ((∃ i, decode (s.imem.read (s.pc.toNat / 4)) = .ok i ∧ exec i s = .next t) ∨
      ∃ r, decode (s.imem.read (s.pc.toNat / 4)) = .error r ∧ s.cfg.invalidPolicy = .nop ∧
        t = Effect.none.apply (pc4 s.pc) (invalidKind (s.imem.read (s.pc.toNat / 4))) s) := by
  cases hr : s.raised with
  | some f => simp [step_of_raised s f hr] at h
  | none =>
    by_cases hp : s.pc = sentinel
    · simp [step_of_sentinel s hr hp] at h
    · rw [step_of_running s hr hp] at h
      rcases fetch_cases s with ⟨-, hf⟩ | ⟨-, -, hf⟩ | ⟨ha, hl, hf⟩
      · simp [hf] at h
      · simp [hf] at h
      · rw [hf] at h
        refine ⟨rfl, hp, ha, hl, ?_⟩
        cases hd : decode (s.imem.read (s.pc.toNat / 4)) with
        | ok i => exact .inl ⟨i, rfl, by simpa [execWord_of_decode _ _ _ hd] using h⟩
        | error r =>
          right
          simp only [execWord_of_reject _ _ _ hd] at h
          rcases execInvalid_cases (s.imem.read (s.pc.toNat / 4)) s with ⟨-, he⟩ | ⟨hn, he⟩
          · simp [he] at h
          · rw [he] at h
            injection h with h
            exact ⟨r, rfl, hn, h.symm⟩

/-- The step's frame on what no instruction writes: IMEM, PROG_LEN, the fault record and the parameters. -/
theorem step_next_effect (s t : State) (h : step s = .next t) :
    ∃ e target k, t = Effect.apply e target k s ∧ ∀ a v, e = .store a v → a < s.cfg.memWords := by
  obtain ⟨-, -, -, -, ⟨i, -, hi⟩ | ⟨r, -, -, rfl⟩⟩ := step_next_cases s t h
  · obtain ⟨e, target, rfl, ha, -⟩ := exec_next_cases i s t hi
    refine ⟨e, target, _, rfl, fun a v he => ?_⟩
    subst he
    exact ha.1
  · exact ⟨.none, _, _, rfl, fun a v he => by cases he⟩

/-- The very next step runs the word that withFetchWord placed. -/
theorem step_withFetchWord (s : State) (n w : Nat) (h : s.raised = none) (hp : s.pc ≠ sentinel) (ha : s.pc.toNat % 4 = 0) :
    step (s.withFetchWord n w) = execWord (BitVec.ofNat 32 (w % 2 ^ n)) (s.withFetchWord n w) := by
  rw [step_of_program _ (by simpa using h) (by simpa using hp) (by simpa using ha) (by simp)]
  simp

/-! ### The run -/

@[simp] theorem runSteps_zero (s : State) : runSteps 0 s = .next s := rfl

theorem runSteps_of_next (n : Nat) (s t : State) (h : step s = .next t) : runSteps (n + 1) s = runSteps n t := by
  simp [runSteps, h]

theorem runSteps_of_fault (n : Nat) (s : State) (f : Fault) (h : step s = .fault f) : runSteps (n + 1) s = .fault f := by
  simp [runSteps, h]

theorem runSteps_of_refused (n : Nat) (s : State) (r : Refusal) (h : step s = .refused r) :
    runSteps (n + 1) s = .refused r := by
  simp [runSteps, h]

/-- A run that has stopped stays stopped. -/
theorem runSteps_stopped (n m : Nat) (s : State) (h : ∀ t, runSteps n s ≠ .next t) : runSteps (n + m) s = runSteps n s := by
  induction n generalizing s with
  | zero => exact absurd rfl (h s)
  | succ n ih =>
    rw [Nat.add_right_comm]
    cases hs : step s with
    | next t =>
      rw [runSteps_of_next _ _ _ hs] at h ⊢
      rw [runSteps_of_next _ _ _ hs]
      exact ih t h
    | fault f => rw [runSteps_of_fault _ _ _ hs, runSteps_of_fault _ _ _ hs]
    | refused r => rw [runSteps_of_refused _ _ _ hs, runSteps_of_refused _ _ _ hs]

end Sys2Proof.Machine
end

