-- ==== Sys2Proof/Tests/Slice0.lean ====
section
/-! SUPPORT. The model's own tests. Expected results come from the spec: a vector of 95_test_vectors.md is named where one is
used (V, M, B, E, F and DV numbers are that file's), the rest is worked by hand from the rule cited. Each word is written out
from R61, R64 and R65. The witnesses at the end meet the hypotheses of the obligations. -/

namespace Sys2Proof.Tests
open Sys2Proof.Machine

/-! ### Ill-formed terms the checks of WellFormed.lean refuse -/

theorem test_illFormed_add : (Instr.add 1 2 3 5).wellFormed = false := by decide
theorem test_illFormed_addu : (Instr.addu 1 2 3 1).wellFormed = false := by decide
theorem test_illFormed_sub : (Instr.sub 1 2 3 16).wellFormed = false := by decide
theorem test_illFormed_subu : (Instr.subu 1 2 3 1).wellFormed = false := by decide
theorem test_illFormed_and : (Instr.and 1 2 3 1).wellFormed = false := by decide
theorem test_illFormed_or : (Instr.or 1 2 3 1).wellFormed = false := by decide
theorem test_illFormed_nor : (Instr.nor 1 2 3 31).wellFormed = false := by decide
theorem test_illFormed_slt : (Instr.slt 1 2 3 1).wellFormed = false := by decide
theorem test_illFormed_sltu : (Instr.sltu 1 2 3 1).wellFormed = false := by decide
theorem test_illFormed_sll : (Instr.sll 1 2 3 4).wellFormed = false := by decide
theorem test_illFormed_srl : (Instr.srl 1 2 3 4).wellFormed = false := by decide
theorem test_illFormed_jr : (Instr.jr 31 1).wellFormed = false := by decide
theorem test_illFormed_jalr_rt : (Instr.jalr 5 0b000010000000000#15).wellFormed = false := by decide
theorem test_illFormed_jalr_shamt : (Instr.jalr 5 0b000000000000001#15).wellFormed = false := by decide
theorem test_illFormed_lui : (Instr.lui 1 2 0x1234).wellFormed = false := by decide

/-- jalr's rd field is an operand of the assembler's form, so it may be anything (R69, R175). -/
theorem test_wellFormed_jalr_rd : (Instr.jalr 5 0b000001111100000#15).wellFormed = true := by decide

theorem test_config_noMemory : ({ Config.reference with memWords := 0 }).memWordsOk = false := by decide
theorem test_config_tooMuchMemory : ({ Config.reference with memWords := 2 ^ 28 + 1 }).memWordsOk = false := by decide
theorem test_config_programTooLong : ({ Config.reference with imemWords := 4 }).progLenOk 5 = false := by decide
theorem test_config_storeTooLong : ({ Config.reference with imemWords := 2 ^ 30 + 1 }).progLenOk 1 = false := by decide
theorem test_config_misalignedReset : ({ Config.reference with resetPc := 2#32 }).resetPcOk 4 = false := by decide
theorem test_config_resetPastProgram : ({ Config.reference with resetPc := 16#32 }).resetPcOk 4 = false := by decide
theorem test_config_reference : Config.reference.wellFormed 1 = true := by decide

/-! ### Decoding: one word per constructor, its fields from the high bits down -/

theorem test_decode_add : decode 0b000000_00001_00010_00011_00000_100000#32 = .ok (.add 1 2 3 0) := by decide
theorem test_decode_addu : decode 0b000000_11111_00000_10000_00000_100001#32 = .ok (.addu 31 0 16 0) := by decide
theorem test_decode_sub : decode 0b000000_00001_00010_00011_00000_100010#32 = .ok (.sub 1 2 3 0) := by decide
theorem test_decode_subu : decode 0b000000_00001_00010_00011_00000_100011#32 = .ok (.subu 1 2 3 0) := by decide
theorem test_decode_and : decode 0b000000_00001_00010_00011_00000_100100#32 = .ok (.and 1 2 3 0) := by decide
theorem test_decode_or : decode 0b000000_00001_00010_00011_00000_100101#32 = .ok (.or 1 2 3 0) := by decide
theorem test_decode_nor : decode 0b000000_00001_00010_00011_00000_100111#32 = .ok (.nor 1 2 3 0) := by decide
theorem test_decode_slt : decode 0b000000_00001_00010_00011_00000_101010#32 = .ok (.slt 1 2 3 0) := by decide
theorem test_decode_sltu : decode 0b000000_00001_00010_00011_00000_101011#32 = .ok (.sltu 1 2 3 0) := by decide
/-- E1: the all-zero word. -/
theorem test_decode_sll : decode 0b000000_00000_00000_00000_00000_000000#32 = .ok (.sll 0 0 0 0) := by decide
theorem test_decode_srl : decode 0b000000_00000_00010_00011_00100_000010#32 = .ok (.srl 0 2 3 4) := by decide
theorem test_decode_jr : decode 0b000000_11111_000000000000000_001000#32 = .ok (.jr 31 0) := by decide
/-- E8. -/
theorem test_decode_jalr : decode 0b000000_11111_000001111100000_001001#32 = .ok (.jalr 31 0b000001111100000) := by decide
theorem test_decode_addi : decode 0b001000_00000_00001_0111111111111111#32 = .ok (.addi 0 1 0x7FFF) := by decide
theorem test_decode_addiu : decode 0b001001_00001_00010_1111111111111111#32 = .ok (.addiu 1 2 0xFFFF) := by decide
theorem test_decode_andi : decode 0b001100_00001_00010_0000000000000011#32 = .ok (.andi 1 2 3) := by decide
theorem test_decode_ori : decode 0b001101_00010_00010_0101011001111000#32 = .ok (.ori 2 2 0x5678) := by decide
theorem test_decode_lui : decode 0b001111_00000_00010_0001001000110100#32 = .ok (.lui 0 2 0x1234) := by decide
theorem test_decode_slti : decode 0b001010_00001_00010_1000000000000000#32 = .ok (.slti 1 2 0x8000) := by decide
theorem test_decode_sltiu : decode 0b001011_00001_00010_1000000000000000#32 = .ok (.sltiu 1 2 0x8000) := by decide
theorem test_decode_lw : decode 0b100011_00001_00010_0000000000000100#32 = .ok (.lw 1 2 4) := by decide
theorem test_decode_sw : decode 0b101011_00001_00010_0000000000000100#32 = .ok (.sw 1 2 4) := by decide
theorem test_decode_beq : decode 0b000100_00001_00010_0000000000000010#32 = .ok (.beq 1 2 2) := by decide
theorem test_decode_bne : decode 0b000101_00001_00010_0000000000000010#32 = .ok (.bne 1 2 2) := by decide
theorem test_decode_j : decode 0b000010_00000000000000000100000000#32 = .ok (.j 0x100) := by decide
theorem test_decode_jal : decode 0b000011_11111111111111111111111111#32 = .ok (.jal 0x3FFFFFF) := by decide

/-- E2: add with shamt 5 is add. E6: addi with the bits of a func code is addi. -/
theorem test_decode_ignoredFields :
    decode 0x00221960#32 = .ok (.add 1 2 3 5) ∧ decode 0x2022003F#32 = .ok (.addi 1 2 0x003F) := by decide

/-- E3, E4, E5, E7: Invalid words, each refused by its own reason. -/
theorem test_decode_rejects :
    decode 0x0000000C#32 = .error (.unmatchedFunc 0x0C) ∧ decode 0x00000003#32 = .error (.unmatchedFunc 0x03) ∧
    decode 0x8022FFFF#32 = .error (.unmatchedOpcode 0x20) ∧ decode 0xFFFFFFFF#32 = .error (.unmatchedOpcode 0x3F) := by
  decide

/-- A record's first byte is the word's most significant (R44); fewer than four bytes are no record. -/
theorem test_decodeRecord :
    decodeRecord [0x8C#8, 0x22#8, 0x00#8, 0x04#8] = .ok (.lw 1 2 4) ∧
    decodeRecord [0x8C#8, 0x22#8, 0x00#8] = .error .partialRecord := by decide

/-- The host's entry reads the same word; bits above nbits are 0. -/
theorem test_decodeTableWord :
    decodeTableWord 32 0x00221820 = some (.add 1 2 3 0) ∧ decodeTableWord 32 0xFFFFFFFF = none := by decide

/-- DV1: the decoder block's record; its imm26, which DV1 does not list, is bits 25..0 of the word (R82). -/
theorem test_decoderBlock_lw :
    decoderBlock 0x8C24FFFE#32 0x00000010#32 =
      { opcode := 0x23, rs := 1, rt := 4, rd := 31, shamt := 31, func := 0x3E, imm16 := 0xFFFE,
        imm26 := 0x024FFFE, simm := 0xFFFFFFFE, zimm := 0x0000FFFE, boff := 0xFFFFFFF8, jtarget := 0x0093FFF8 } := by decide

/-- DV4: the jump target's top four bits are the fetch pc's, not pc4's. -/
theorem test_decoderBlock_j : (decoderBlock 0x0BFFFFFF#32 0x0FFFFFFC#32).jtarget = 0x0FFFFFFC#32 := by decide

/-! ### One step on a small state -/

/-- The boot under `c` with registers set, the pc at `pc` and the word `w` there. -/
def startWith (c : Config) (regs : List (Reg × Word)) (pc w : Word) : State :=
  regs.foldl (fun s p => s.setReg p.1 p.2) (((State.boot c).setPc pc).withFetchWord 32 w.toNat)

/-- The reference boot with registers set, the pc at `pc` and the word `w` there. -/
def start (regs : List (Reg × Word)) (pc w : Word) : State := startWith Config.reference regs pc w

/-- What is read from the state a step answers. -/
def after {α : Type} (f : State → α) : Result → Option α
  | .next t => some (f t)
  | .fault _ => none
  | .refused _ => none

/-- The fault a step answers. -/
def faultOf : Result → Option Fault
  | .next _ => none
  | .fault f => some f
  | .refused _ => none

/-- The refusal a step answers. -/
def refusalOf : Result → Option Refusal
  | .next _ => none
  | .fault _ => none
  | .refused r => some r

/-- x[r] and the pc after the step. -/
def regPc (r : Reg) (o : Result) : Option (Word × Word) := after (fun t => (t.reg r, t.pc)) o

/-- V1; the counters of a register-register instruction (R97). -/
theorem test_add_sum :
    after (fun t => (t.reg 3, t.pc, t.stats)) (step (start [(1, 5), (2, 10)] 0 0x00221820)) =
      some (15, 4, { cycles := 1, rType := 1, iType := 0, jType := 0, branch := 0, mem := 0 }) := by decide

/-- V2 (S3). -/
theorem test_add_overflow :
    faultOf (step (start [(1, 0x7FFFFFFF), (2, 1)] 8 0x00221820)) = some (.arithmeticOverflow 8) := by decide

/-- V7 (S4). -/
theorem test_addu_wraps : regPc 3 (step (start [(1, 0x7FFFFFFF), (2, 1)] 0 0x00221821)) = some (0x80000000, 4) := by decide

/-- V15: the operand order. -/
theorem test_sub_order : regPc 3 (step (start [(1, 3), (2, 10)] 0 0x00221822)) = some (0xFFFFFFF9, 4) := by decide

/-- V13. -/
theorem test_sub_overflow :
    faultOf (step (start [(1, 0), (2, 0x80000000)] 0 0x00221822)) = some (.arithmeticOverflow 0) := by decide

/-- V17. -/
theorem test_subu_wraps : regPc 3 (step (start [(1, 0x80000000), (2, 1)] 0 0x00221823)) = some (0x7FFFFFFF, 4) := by decide

/-- V18. -/
theorem test_and : regPc 3 (step (start [(1, 0xF0F0), (2, 0xFF00)] 0 0x00221824)) = some (0xF000, 4) := by decide

/-- V20. -/
theorem test_or : regPc 3 (step (start [(1, 0xF0F0), (2, 0xFF00)] 0 0x00221825)) = some (0xFFF0, 4) := by decide

/-- V23. -/
theorem test_nor : regPc 3 (step (start [(1, 0xF0F0), (2, 0xFF00)] 0 0x00221827)) = some (0xFFFF000F, 4) := by decide

/-- V24. -/
theorem test_slt_signed : regPc 3 (step (start [(1, 0xFFFFFFFF), (2, 1)] 0 0x0022182A)) = some (1, 4) := by decide

/-- V28. -/
theorem test_sltu_unsigned : regPc 3 (step (start [(1, 0xFFFFFFFF), (2, 1)] 0 0x0022182B)) = some (0, 4) := by decide

/-- V31, with rs naming another register, whose value is not read (D10). -/
theorem test_sll : regPc 3 (step (start [(1, 7), (2, 1)] 0 0x00221900)) = some (0x10, 4) := by decide

/-- V35. -/
theorem test_srl_logical : regPc 3 (step (start [(2, 0x80000000)] 0 0x00021902)) = some (0x08000000, 4) := by decide

/-- V36. -/
theorem test_srl_arithmetic :
    regPc 3 (step (startWith { Config.reference with srlKind := .arithmetic } [(2, 0x80000000)] 0 0x00021902)) =
      some (0xF8000000, 4) := by decide

/-- V45: the immediate is sign-extended. -/
theorem test_addi_sign : regPc 1 (step (start [] 0 0x20018000)) = some (0xFFFF8000, 4) := by decide

/-- P6's first instruction: register 0 is written. -/
theorem test_addi_register0 : regPc 0 (step (start [] 0 0x20000003)) = some (3, 4) := by decide

/-- V46. -/
theorem test_addiu_wraps : regPc 2 (step (start [(1, 0x7FFFFFFF)] 0 0x24220001)) = some (0x80000000, 4) := by decide

/-- V48: the immediate is zero-extended. -/
theorem test_andi_zeroExtends : regPc 2 (step (start [(1, 0xFFFFFFFF)] 0 0x3022FFFF)) = some (0xFFFF, 4) := by decide

/-- V50. -/
theorem test_ori : regPc 2 (step (start [(1, 0x12340000)] 0 0x34228000)) = some (0x12348000, 4) := by decide

/-- V52: x[rs] is ignored. -/
theorem test_lui : regPc 2 (step (start [(1, 0xDEADBEEF)] 0 0x3C221234)) = some (0x12340000, 4) := by decide

/-- V54. -/
theorem test_slti_signed : regPc 2 (step (start [(1, 0xFFFFFFFE)] 0 0x2822FFFF)) = some (1, 4) := by decide

/-- V60. -/
theorem test_sltiu_sext : regPc 2 (step (start [(1, 0x00010000)] 0 0x2C22FFFF)) = some (1, 4) := by decide

/-- V61. -/
theorem test_sltiu_zext :
    regPc 2 (step (startWith { Config.reference with sltiuImmExt := .zext } [(1, 0x00010000)] 0 0x2C22FFFF)) =
      some (0, 4) := by decide

/-- M1: the low two bits of the address are dropped; the counters of a load. -/
theorem test_lw :
    after (fun t => (t.reg 2, t.pc, t.stats.iType, t.stats.mem)) (step ((start [(1, 2)] 0 0x8C220004).store 1 0xDEADBEEF)) =
      some (0xDEADBEEF, 4, 1, 1) := by decide

/-- M7: bit 31 of the address faults, with the index 0 recorded. -/
theorem test_lw_negative : faultOf (step (start [] 0 0x8C02FFFF)) = some (.memoryBounds 0 0) := by decide

/-- M2. -/
theorem test_sw :
    after (fun t => (t.dmem, t.pc)) (step (start [(1, 2), (2, 0x12345678)] 0 0xAC220004)) = some ([(1, 0x12345678)], 4) := by
  decide

/-- M6. -/
theorem test_sw_negative : faultOf (step (start [] 0 0xAC00FFFC)) = some (.memoryBounds (-1) 0) := by decide

/-- B1. -/
theorem test_beq_taken : after State.pc (step (start [(1, 7), (2, 7)] 0x10 0x10220002)) = some 0x1C := by decide

/-- B2. -/
theorem test_beq_notTaken : after State.pc (step (start [(1, 7), (2, 8)] 0x10 0x10220002)) = some 0x14 := by decide

/-- B3. -/
theorem test_bne_taken :
    after (fun t => (t.pc, t.stats.iType, t.stats.branch)) (step (start [(1, 7), (2, 8)] 0x10 0x14220002)) =
      some (0x1C, 1, 1) := by decide

/-- bne with equal registers goes on (R171). -/
theorem test_bne_notTaken : after State.pc (step (start [(1, 7), (2, 7)] 0x10 0x14220002)) = some 0x14 := by decide

/-- B6. -/
theorem test_j_region : after State.pc (step (start [] 0x0FFFFFFC 0x0BFFFFFF)) = some 0x0FFFFFFC := by decide

/-- B7. -/
theorem test_jal :
    after (fun t => (t.reg 31, t.pc, t.stats.jType)) (step (start [] 0x10 0x0C000100)) = some (0x14, 0x400, 1) := by decide

/-- B8. -/
theorem test_jr_sentinel :
    after (fun t => (t.pc, t.status, t.stats.cycles)) (step (start [] 0 0x03E00008)) = some (0xFFFFFFFF, .halted, 1) := by
  decide

/-- B13: the target is not checked by jr. -/
theorem test_jr_misaligned : after State.pc (step (start [(5, 6)] 4 0x00A00008)) = some 6 := by decide

/-- B9, and B10: with rs = 31 under FAULT. -/
theorem test_jalr :
    regPc 31 (step (start [(5, 0x100)] 0x10 0x00A0F809)) = some (0x14, 0x100) ∧
    faultOf (step (start [] 0 0x03E0F809)) = some (.unpredictableJalr 0 0x03E0F809) := by decide

/-- B11 and B12: with rs = 31 under OLD the jump goes to the old x[31], under NEW to pc + 4. -/
theorem test_jalr_link :
    regPc 31 (step (startWith { Config.reference with jalrLinkRead := .old } [] 0 0x03E0F809)) = some (4, 0xFFFFFFFF) ∧
    regPc 31 (step (startWith { Config.reference with jalrLinkRead := .new } [] 0 0x03E0F809)) = some (4, 4) := by decide

/-! ### Invalid words and the fetch -/

/-- F1. -/
theorem test_invalid_rType :
    after (fun t => (t.pc, t.stats.rType, t.stats.iType, t.stats.cycles)) (step (start [] 8 0x0000000C)) =
      some (0xC, 1, 0, 1) := by decide

/-- F2. -/
theorem test_invalid_iType :
    after (fun t => (t.pc, t.stats.rType, t.stats.iType, t.stats.cycles)) (step (start [] 4 0xFFFFFFFF)) =
      some (8, 0, 1, 1) := by decide

/-- F3. -/
theorem test_invalid_fault :
    faultOf (step (startWith { Config.reference with invalidPolicy := .fault } [] 0 0x0000000C)) =
      some (.invalidInstruction 0 0x0000000C) := by decide

/-- F4: pc = 4 with PROG_LEN = 1. -/
theorem test_fetch_pastProgram : faultOf (step ((start [] 0 0x20010001).setPc 4)) = some (.fetchOutOfProgram 4) := by decide

/-- F5: pc = 6 with PROG_LEN = 2. -/
theorem test_fetch_misaligned : faultOf (step ((start [] 4 0x20010001).setPc 6)) = some (.misalignedFetch 6) := by decide

/-- F6. -/
theorem test_fetch_sentinel : refusalOf (step ((start [] 0 0x20010001).setPc 0xFFFFFFFF)) = some .halted := by decide

/-- With no program placed, the first step after reset faults at the fetch (log 6). -/
theorem test_reset_noProgram : faultOf (step State.reset) = some (.fetchOutOfProgram 0) := by decide

/-- The loop body records the fault and leaves the registers (R99, P5). -/
theorem test_advance_records :
    (advance (start [(1, 0x7FFFFFFF)] 8 0x20220001)).status = .faulted (.arithmeticOverflow 8) ∧
    (advance (start [(1, 0x7FFFFFFF)] 8 0x20220001)).reg 2 = 0 := by decide

/-- An image's records become words, the first byte the most significant (R44, R220). -/
theorem test_assemble :
    assembleImage [0x20#8, 0x01#8, 0x00#8, 0x05#8, 0x03#8, 0xE0#8, 0x00#8, 0x08#8] = .ok [0x20010005#32, 0x03E00008#32] := by
  decide

/-! ### Memory -/

/-- Cells stay sorted, a word is replaced in place, and writing 0 removes the cell. -/
theorem test_memory_write :
    Memory.write [(1, 5), (7, 6)] 3 9 = [(1, 5), (3, 9), (7, 6)] ∧ Memory.write [(1, 5), (7, 6)] 1 9 = [(1, 9), (7, 6)] ∧
    Memory.write [(1, 5), (7, 6)] 7 0 = [(1, 5)] := by decide

/-- Forms that are not canonical: out of order, repeated, a listed 0. -/
theorem test_memory_illFormed :
    Memory.wf [(2, 1), (1, 1)] = false ∧ Memory.wf [(1, 1), (1, 2)] = false ∧ Memory.wf [(1, 0)] = false := by decide

/-! ### Witnesses: concrete states and operands that meet the obligations' hypotheses -/

/-- EncodeRestoresDecodedWord, ResolverAgreesWithDecoder. -/
theorem witness_decodes : decode 0x00221820#32 = .ok (.add 1 2 3 0) := by decide

/-- ResolverAgreesWithDecoder: the two kinds of Invalid word. -/
theorem witness_rejected :
    (opcodeOf 0x0000000C#32 = 0x00 ∧
      funcOf 0x0000000C#32 ∉
        [0x00#6, 0x02#6, 0x08#6, 0x09#6, 0x20#6, 0x21#6, 0x22#6, 0x23#6, 0x24#6, 0x25#6, 0x27#6, 0x2A#6, 0x2B#6]) ∧
    decode 0x80000000#32 = .error (.unmatchedOpcode 0x20) := by decide

/-- AddWritesTheSumOrFaults, first clause: the largest sum, the least sum, and operands of different signs. -/
theorem witness_add_completes :
    [((0x7FFFFFFE : Word), (1 : Word)), (0x80000001, 0xFFFFFFFF), (0x80000000, 0x7FFFFFFF)].all (fun p =>
      let s := start [(1, p.1), (2, p.2)] 0 0x00221820
      decide (¬ ((s.reg 1).msb = (s.reg 2).msb ∧ (s.reg 1 + s.reg 2).msb ≠ (s.reg 1).msb))) = true := by decide

/-- AddWritesTheSumOrFaults, second clause: one past the largest and one past the least (V2, V3). -/
theorem witness_add_faults :
    [((0x7FFFFFFF : Word), (1 : Word)), (0x80000000, 0xFFFFFFFF)].all (fun p =>
      let s := start [(1, p.1), (2, p.2)] 0 0x00221820
      decide ((s.reg 1).msb = (s.reg 2).msb ∧ (s.reg 1 + s.reg 2).msb ≠ (s.reg 1).msb)) = true := by decide

/-- SubWritesTheDifferenceOrFaults, first clause (V14 and the largest difference). -/
theorem witness_sub_completes :
    [((0xFFFFFFFF : Word), (0x7FFFFFFF : Word)), (0x7FFFFFFE, 0xFFFFFFFF), (3, 10)].all (fun p =>
      let s := start [(1, p.1), (2, p.2)] 0 0x00221822
      decide (¬ ((s.reg 1).msb ≠ (s.reg 2).msb ∧ (s.reg 1 - s.reg 2).msb ≠ (s.reg 1).msb))) = true := by decide

/-- SubWritesTheDifferenceOrFaults, second clause (V11, V12, V13). -/
theorem witness_sub_faults :
    [((0x80000000 : Word), (1 : Word)), (0x7FFFFFFF, 0xFFFFFFFF), (0, 0x80000000)].all (fun p =>
      let s := start [(1, p.1), (2, p.2)] 0 0x00221822
      decide ((s.reg 1).msb ≠ (s.reg 2).msb ∧ (s.reg 1 - s.reg 2).msb ≠ (s.reg 1).msb)) = true := by decide

/-- AddiWritesTheSumOrFaults, first clause (V44 and the largest sum). -/
theorem witness_addi_completes :
    [((0x7FFFFFFF : Word), (0xFFFF : Imm16)), (0x7FFFFFFE, 1), (0x80000001, 0xFFFF)].all (fun p =>
      let s := start [(1, p.1)] 0 0x20220001
      decide (¬ ((s.reg 1).msb = p.2.msb ∧ (s.reg 1 + p.2.signExtend 32).msb ≠ (s.reg 1).msb))) = true := by decide

/-- AddiWritesTheSumOrFaults, second clause (V42, V43). -/
theorem witness_addi_faults :
    [((0x7FFFFFFF : Word), (1 : Imm16)), (0x80000000, 0xFFFF)].all (fun p =>
      let s := start [(1, p.1)] 0 0x20220001
      decide ((s.reg 1).msb = p.2.msb ∧ (s.reg 1 + p.2.signExtend 32).msb ≠ (s.reg 1).msb)) = true := by decide

/-- ShiftsByAnImmediateAmount and SetOnLessThanImmediate: each parameter setting is a state's. -/
theorem witness_parameters :
    (start [] 0 0).cfg.srlKind = .logical ∧
    (startWith { Config.reference with srlKind := .arithmetic } [] 0 0).cfg.srlKind = .arithmetic ∧
    (start [] 0 0).cfg.sltiuImmExt = .sext ∧
    (startWith { Config.reference with sltiuImmExt := .zext } [] 0 0).cfg.sltiuImmExt = .zext := by decide

/-- LwLoadsTheWordOrFaults and SwStoresTheWordOrFaults, the legal clause: the first word and the last byte of the last word
(M4), MEM_WORDS = 1024. -/
theorem witness_data_legal :
    [(0 : Word), 4095].all (fun a =>
      let s := start [(1, a)] 0 0x8C220000
      decide ((effAddr (s.reg 1) 0).toNat < 2 ^ 31 ∧ (effAddr (s.reg 1) 0).toNat / 4 < s.cfg.memWords)) = true := by decide

/-- The out-of-bounds clause: the first byte past DMEM (M5) and the last address below 2^31 (M9). -/
theorem witness_data_past :
    [(4096 : Word), 0x7FFFFFFF].all (fun a =>
      let s := start [(1, a)] 0 0x8C220000
      decide ((effAddr (s.reg 1) 0).toNat < 2 ^ 31 ∧ s.cfg.memWords ≤ (effAddr (s.reg 1) 0).toNat / 4)) = true := by decide

/-- The bit-31 clause: 2^31 and the last address (M7). -/
theorem witness_data_negative :
    [(0x80000000 : Word), 0xFFFFFFFF].all (fun a =>
      let s := start [(1, a)] 0 0x8C220000
      decide (2 ^ 31 ≤ (effAddr (s.reg 1) 0).toNat)) = true := by decide

/-- LoadReturnsTheLastStore: a completed sw, after which a load of the same and of another index is legal. -/
theorem witness_loadAfterStore :
    after (fun t => decide ((effAddr (t.reg 1) 4).toNat / 4 < t.cfg.memWords ∧ (effAddr (t.reg 1) 8).toNat / 4 < t.cfg.memWords ∧
        (effAddr (t.reg 1) 8).toNat < 2 ^ 31))
      (exec (.sw 1 2 4) (start [(1, 2), (2, 0x12345678)] 0 0xAC220004)) = some true := by decide

/-- EffectiveAddressIsExactUnderTheBound: an exact address in bounds, a negative one, and the first one past DMEM. -/
theorem witness_exactAddress :
    let s := start [(1, 8)] 0 0
    s.cfg.memWords ≤ 2 ^ 28 ∧ ((s.reg 1).toInt + (0xFFFC : Imm16).toInt = (4 : Nat) ∧ 4 / 4 < s.cfg.memWords) ∧
    (s.reg 1).toInt + (0xFFF7 : Imm16).toInt < 0 ∧
    (4 * s.cfg.memWords : Int) ≤ (s.reg 1).toInt + (0x0FF8 : Imm16).toInt := by decide

/-- JrLoadsThePc and JalrLinksAndJumps: no fault raised; SENTINEL, a target that is no multiple of 4, and the first target past
the program. -/
theorem witness_jump_targets :
    (start [] 0 0x00A00008).raised = none ∧ (start [] 0 0x00A00008).reg 31 = sentinel ∧
    ((start [(5, 6)] 0 0x00A00008).reg 5).toNat % 4 ≠ 0 ∧
    ((start [(5, 4)] 0 0x00A00008).reg 5).toNat % 4 = 0 ∧
    (start [(5, 4)] 0 0x00A00008).progLen ≤ ((start [(5, 4)] 0 0x00A00008).reg 5).toNat / 4 := by decide

/-- JalrLinksAndJumps: rs = 31 under each setting, and rs ≠ 31. -/
theorem witness_jalr_settings :
    (start [] 0 0x03E0F809).cfg.jalrLinkRead = .fault ∧
    (startWith { Config.reference with jalrLinkRead := .old } [] 0 0x03E0F809).cfg.jalrLinkRead = .old ∧
    (startWith { Config.reference with jalrLinkRead := .new } [] 0 0x03E0F809).cfg.jalrLinkRead = .new ∧
    (5 : Reg) ≠ 31 := by decide

/-- InvalidWordsDoNothingOrFault: opcode 0 under NOP (F1). -/
theorem witness_invalid_opcode0 :
    Fetches (start [] 8 0x0000000C) 0x0000000C#32 ∧
    (opcodeOf 0x0000000C#32 = 0x00 ∧
      funcOf 0x0000000C#32 ∉
        [0x00#6, 0x02#6, 0x08#6, 0x09#6, 0x20#6, 0x21#6, 0x22#6, 0x23#6, 0x24#6, 0x25#6, 0x27#6, 0x2A#6, 0x2B#6]) ∧
    (start [] 8 0x0000000C).cfg.invalidPolicy = .nop :=
  ⟨⟨by decide, by decide, by decide, by decide, by decide⟩, by decide, by decide⟩

/-- InvalidWordsDoNothingOrFault: another opcode, under FAULT. -/
theorem witness_invalid_other :
    Fetches (startWith { Config.reference with invalidPolicy := .fault } [] 4 0xFFFFFFFF) 0xFFFFFFFF#32 ∧
    opcodeOf 0xFFFFFFFF#32 ∉
      [0x00#6, 0x02#6, 0x03#6, 0x04#6, 0x05#6, 0x08#6, 0x09#6, 0x0A#6, 0x0B#6, 0x0C#6, 0x0D#6, 0x0F#6, 0x23#6, 0x2B#6] ∧
    (startWith { Config.reference with invalidPolicy := .fault } [] 4 0xFFFFFFFF).cfg.invalidPolicy = .fault :=
  ⟨⟨by decide, by decide, by decide, by decide, by decide⟩, by decide, by decide⟩

/-- StepRunsTheDecodedInstruction, OneRegisterWriterPerCycle, CountersClassifyEveryWord and
StepsKeepTheProgramAndTheParameters: a word fetched, decoded, completed, and a register changed. -/
theorem witness_step_runs :
    Fetches (start [] 0 0x20010005) 0x20010005#32 ∧ decode 0x20010005#32 = .ok (.addi 0 1 5) ∧
    after (fun t => decide (t.reg 1 ≠ (start [] 0 0x20010005).reg 1)) (step (start [] 0 0x20010005)) = some true :=
  ⟨⟨by decide, by decide, by decide, by decide, by decide⟩, by decide, by decide⟩

/-- FetchChecksAlignmentThenTheProgram: a misaligned pc inside the program, the first pc past it, and its last word. -/
theorem witness_fetch_clauses :
    let s := start [] 4 0x20010001
    s.raised = none ∧ (s.setPc 6).pc ≠ 0xFFFFFFFF#32 ∧ (s.setPc 6).pc.toNat % 4 ≠ 0 ∧
    ((s.setPc 8).pc.toNat % 4 = 0 ∧ (s.setPc 8).progLen ≤ (s.setPc 8).pc.toNat / 4) ∧
    (s.pc.toNat % 4 = 0 ∧ s.pc.toNat / 4 < s.progLen) := by decide

/-- FaultsAreRecordedAndFinal, EveryRunHasExactlyOneOutcome: a running machine whose step and run fault. -/
theorem witness_faults :
    (start [(1, 0x7FFFFFFF)] 8 0x20220001).raised = none ∧
    faultOf (step (start [(1, 0x7FFFFFFF)] 8 0x20220001)) = some (.arithmeticOverflow 8) ∧
    faultOf (runSteps 1 (start [(1, 0x7FFFFFFF)] 8 0x20220001)) = some (.arithmeticOverflow 8) := by decide

/-- StepIsRefusedOnlyWhenHalted, EveryRunHasExactlyOneOutcome: `jr r31` from boot halts. -/
theorem witness_halts : refusalOf (runSteps 2 (start [] 0 0x03E00008)) = some .halted := by decide

/-- InstructionsRaiseOnlyTheirFaults: one fault of each kind (V2, M5, B10). -/
theorem witness_instruction_faults :
    faultOf (exec (.add 1 2 3 0) (start [(1, 0x7FFFFFFF), (2, 1)] 0 0)) = some (.arithmeticOverflow 0) ∧
    faultOf (exec (.lw 1 2 0) (start [(1, 4096)] 0 0)) = some (.memoryBounds 1024 0) ∧
    faultOf (exec (.jalr 31 0b000001111100000) (start [] 0 0)) = some (.unpredictableJalr 0 0x03E0F809) := by decide

/-- OneRegisterWriterPerCycle, CountersClassifyEveryWord: an Invalid word whose step completes. -/
theorem witness_invalid_completes :
    Fetches (start [] 8 0x0000000C) 0x0000000C#32 ∧ after State.pc (step (start [] 8 0x0000000C)) = some 0xC :=
  ⟨⟨by decide, by decide, by decide, by decide, by decide⟩, by decide⟩

/-- OnlyLwReadsAndOnlySwWritesDataMemory: a completed instruction after which a word of DMEM differs; an instruction other than
lw. -/
theorem witness_store_changes :
    after (fun t => decide (t.dmem.read 1 ≠ (start [(1, 2), (2, 9)] 0 0xAC220004).dmem.read 1))
      (exec (.sw 1 2 4) (start [(1, 2), (2, 9)] 0 0xAC220004)) = some true ∧ (Instr.sw 1 2 4).mnemonic ≠ .lw := by decide

/-- OnlyJumpRegisterLeavesAlignment: jr to 6 (B13). -/
theorem witness_leaves_alignment :
    Fetches (start [(5, 6)] 4 0x00A00008) 0x00A00008#32 ∧
    after (fun t => decide (t.pc.toNat % 4 ≠ 0)) (step (start [(5, 6)] 4 0x00A00008)) = some true :=
  ⟨⟨by decide, by decide, by decide, by decide, by decide⟩, by decide⟩

/-- WordsPastTheProgramAreUnread: the first index past the program. -/
theorem witness_past_program : (start [] 4 0x20010001).progLen ≤ 2 := by decide

/-- StepsKeepTheInvariant: a state with the invariant whose step completes. -/
theorem witness_invariant :
    Inv (start [(1, 2), (2, 9)] 0 0xAC220004) ∧ after State.pc (step (start [(1, 2), (2, 9)] 0 0xAC220004)) = some 4 :=
  ⟨⟨by decide, by decide, by decide, by decide, by decide, by decide⟩, by decide⟩

/-- BootLoadsTheImageAndTheResetValues, BootStatesMeetTheInvariant: the three clauses where they meet: five bytes, one record
with IMEM_WORDS 0, one record with IMEM_WORDS 1. -/
theorem witness_images :
    [0x03#8, 0xE0#8, 0x00#8, 0x08#8, 0x00#8].length % 4 ≠ 0 ∧
    ([0x03#8, 0xE0#8, 0x00#8, 0x08#8].length % 4 = 0 ∧
      ({ Config.reference with imemWords := 0 }).imemWords < [0x03#8, 0xE0#8, 0x00#8, 0x08#8].length / 4) ∧
    [0x03#8, 0xE0#8, 0x00#8, 0x08#8].length / 4 ≤ ({ Config.reference with imemWords := 1 }).imemWords ∧
    bootImage { Config.reference with imemWords := 1 } [0x03#8, 0xE0#8, 0x00#8, 0x08#8] =
      .ok ((State.boot { Config.reference with imemWords := 1 }).loadProgram [0x03E00008#32]) := by decide

/-- HangsRunForever: a branch to itself (B14), a j to its own address, a jr to its own address. -/
theorem witness_hangs :
    Fetches (start [] 0 0x1000FFFF) 0x1000FFFF#32 ∧
    (Fetches (start [] 0x10 0x08000004) (0b000010#6 ++ (4 : Imm26)) ∧
      jtarget (start [] 0x10 0x08000004).pc 4 = (start [] 0x10 0x08000004).pc) ∧
    (Fetches (start [(5, 0x10)] 0x10 0x00A00008) (0b000000#6 ++ (5 : Reg) ++ (0 : BitVec 15) ++ 0b001000#6) ∧
      (start [(5, 0x10)] 0x10 0x00A00008).reg 5 = (start [(5, 0x10)] 0x10 0x00A00008).pc) :=
  ⟨⟨by decide, by decide, by decide, by decide, by decide⟩,
    ⟨⟨by decide, by decide, by decide, by decide, by decide⟩, by decide⟩,
    ⟨⟨by decide, by decide, by decide, by decide, by decide⟩, by decide⟩⟩

/-- TheHostReadsOnlyEndedRuns: a halted, a faulted and a running state. -/
theorem witness_observations :
    (((start [] 0 0).setPc 0xFFFFFFFF).raised = none ∧ ((start [] 0 0).setPc 0xFFFFFFFF).pc = 0xFFFFFFFF#32) ∧
    ((start [] 0 0).recordFault (.misalignedFetch 6)).raised = some (.misalignedFetch 6) ∧
    ((start [] 0 0).raised = none ∧ (start [] 0 0).pc ≠ 0xFFFFFFFF#32) := by decide

/-- CanonicalMemoriesAreDeterminedByTheirReads: a memory written in two orders reads the same. -/
theorem witness_canonical :
    Memory.wf (Memory.write (Memory.write [] 1 5) 3 7) = true ∧ Memory.wf (Memory.write (Memory.write [] 3 7) 1 5) = true ∧
    Memory.write (Memory.write [] 1 5) 3 7 = Memory.write (Memory.write [] 3 7) 1 5 := by decide

end Sys2Proof.Tests
end

section
/-! The load under the bound of R8: lw by what CheckData answers, and the effective address as the exact signed sum modulo
2^32 (20_memory.md R42, R45). -/

namespace Sys2Proof.Machine

/-- The effective address by the signed reading of the base, the sum that R8 and D8 compare it with. -/
theorem effAddr_toNat_signed (base : Word) (imm : Imm16) :
    ((effAddr base imm).toNat : Int) = (base.toInt + imm.toInt) % 2 ^ 32 := by
  have hea := effAddr_toNat base imm
  have hbase := BitVec.toInt_eq_toNat_cond base
  split at hbase <;> omega

/-- A base in two's complement range and a 16-bit offset overshoot [-2^31, 2^31) by at most 2^15. -/
theorem base_add_offset_range (base : Word) (imm : Imm16) :
    -2 ^ 31 - 2 ^ 15 ≤ base.toInt + imm.toInt ∧ base.toInt + imm.toInt < 2 ^ 31 + 2 ^ 15 := by
  have hbase := toInt_range base
  have hlo := BitVec.le_toInt imm
  have hhi := BitVec.toInt_lt (x := imm)
  omega

/-- An address with bit 31 clear and its quarter below MEM_WORDS passes CheckData (R45). -/
theorem checkData_of_legal (s : State) (ea : Word) (hpos : ea.toNat < 2 ^ 31) (hin : ea.toNat / 4 < s.cfg.memWords) :
    checkData s ea = .ok (ea.toNat / 4) := by
  obtain ⟨h, -⟩ | ⟨-, h, -⟩ | ⟨-, -, h⟩ := checkData_cases s ea
  · omega
  · omega
  · exact h

/-- An address with bit 31 set or its quarter past DMEM fails CheckData (R45, R202). -/
theorem checkData_of_outside (s : State) (ea : Word) (hout : 2 ^ 31 ≤ ea.toNat ∨ s.cfg.memWords ≤ ea.toNat / 4) :
    ∃ k, checkData s ea = .error (.memoryBounds k s.pc) := by
  obtain ⟨-, h⟩ | ⟨-, -, h⟩ | ⟨hpos, hin, -⟩ := checkData_cases s ea
  · exact ⟨_, h⟩
  · exact ⟨_, h⟩
  · omega

/-- lw at a legal address completes as the register write of the loaded word. -/
theorem exec_lw_of_checkData_ok (rs rt : Reg) (imm : Imm16) (s : State) (i : Nat)
    (h : checkData s (effAddr (s.reg rs) imm) = .ok i) :
    exec (.lw rs rt imm) s = finishReg .mem rt (s.dmem.read i) s := by
  simp only [exec, execLw, h]

/-- lw at an illegal address raises CheckData's fault. -/
theorem exec_lw_of_checkData_error (rs rt : Reg) (imm : Imm16) (s : State) (f : Fault)
    (h : checkData s (effAddr (s.reg rs) imm) = .error f) : exec (.lw rs rt imm) s = .fault f := by
  simp only [exec, execLw, h, raise]

/-- An exact signed sum inside DMEM is the effective address itself: below 2^30 nothing wraps (R8). -/
theorem effAddr_eq_exact_sum (base : Word) (imm : Imm16) (n : Nat) (hsum : base.toInt + imm.toInt = n)
    (hn : n < 2 ^ 30) : (effAddr base imm).toNat = n := by
  have hea := effAddr_toNat_signed base imm
  omega

/-- An exact signed sum outside DMEM wraps to no address in DMEM: a sum below -2^31 comes out at 2^31 - 2^15 or above, past
every DMEM that R8 allows, and any other negative sum has bit 31 set. -/
theorem effAddr_outside_of_exact_sum_outside (base : Word) (imm : Imm16) (memWords : Nat) (hmem : memWords ≤ 2 ^ 28)
    (hout : base.toInt + imm.toInt < 0 ∨ (4 * memWords : Int) ≤ base.toInt + imm.toInt) :
    2 ^ 31 ≤ (effAddr base imm).toNat ∨ memWords ≤ (effAddr base imm).toNat / 4 := by
  have hea := effAddr_toNat_signed base imm
  have hrange := base_add_offset_range base imm
  obtain hneg | hpast := hout
  · by_cases hwrap : base.toInt + imm.toInt < -2 ^ 31
    · exact .inr (by omega)
    · exact .inl (by omega)
  · exact .inr (by omega)

end Sys2Proof.Machine

open Sys2Proof Sys2Proof.Machine

/-- Settles O20: under the bound of R8 the wrapped address is the exact sum, or both lie outside DMEM. -/
theorem effectiveAddressIsExactUnderTheBound : Obligations.EffectiveAddressIsExactUnderTheBound := by
  intro rs rt imm s hmem
  constructor
  · intro n hsum hin
    have hea : (effAddr (s.reg rs) imm).toNat = n := effAddr_eq_exact_sum _ _ n hsum (by omega)
    have hcheck := checkData_of_legal s (effAddr (s.reg rs) imm) (by omega) (by omega)
    rw [exec_lw_of_checkData_ok rs rt imm s _ hcheck, hea]
    obtain ⟨t, ht, hreg, -⟩ := finishReg_completes (· = s.dmem.read (n / 4)) rt _ .mem s rfl
    exact ⟨t, ht, hreg⟩
  · intro hout
    have hpast := effAddr_outside_of_exact_sum_outside _ _ _ hmem hout
    obtain ⟨k, hk⟩ := checkData_of_outside s _ hpast
    exact ⟨k, exec_lw_of_checkData_error rs rt imm s _ hk⟩

end

section
/-! What a completed cycle leaves behind, read off its one Effect (40_datapath.md R98): the invariant, the program and the
parameters (10_state.md R30, R97, R240), the register written (R23), the word of DMEM stored (R29) and the pc (R25). -/

namespace Sys2Proof.Machine

/-- A register write or a pure jump keeps DMEM as data; a store writes its one word. -/
theorem Effect.apply_dmem (e : Effect) (target : Word) (k : Kind) (s : State) :
    (e.apply target k s).dmem = match e with
      | .store i v => s.dmem.write i v
      | _ => s.dmem := by
  cases e <;> rfl

/-- An effect that stores only below MEM_WORDS keeps the invariant. -/
theorem Effect.apply_inv (e : Effect) (target : Word) (k : Kind) (s : State) (hs : Inv s)
    (hstore : ∀ a v, e = .store a v → a < s.cfg.memWords) : Inv (e.apply target k s) where
  dmemWf := by
    rw [Effect.apply_dmem]
    cases e with
    | store a v => exact Memory.wf_write _ _ _ hs.dmemWf
    | reg d v => exact hs.dmemWf
    | none => exact hs.dmemWf
  dmemBound := by
    rw [Effect.apply_dmem, Effect.apply_cfg]
    cases e with
    | store a v => exact Memory.below_write _ _ _ _ hs.dmemBound (hstore a v rfl)
    | reg d v => exact hs.dmemBound
    | none => exact hs.dmemBound
  imemWf := by simpa using hs.imemWf
  imemBound := by simpa using hs.imemBound
  counted := by simpa using classify_tick_counted s.stats k hs.counted
  subcounts := by simpa using classify_tick_subcounts s.stats k hs.subcounts

/-- The register that an effect changes is the one it writes. -/
theorem Effect.eq_reg_of_changed (e : Effect) (target : Word) (k : Kind) (s : State) (r : Reg)
    (h : (e.apply target k s).reg r ≠ s.reg r) : ∃ v, e = .reg r v := by
  rw [Effect.apply_reg] at h
  cases e with
  | reg d v =>
    by_cases hr : r = d
    · exact ⟨v, by rw [hr]⟩
    · simp [hr] at h
  | store i v => exact absurd rfl h
  | none => exact absurd rfl h

/-- Only a store changes a word of DMEM. -/
theorem Effect.eq_store_of_changed (e : Effect) (target : Word) (k : Kind) (s : State) (a : Nat)
    (h : (e.apply target k s).dmem.read a ≠ s.dmem.read a) : ∃ i v, e = .store i v := by
  rw [Effect.apply_dmem_read] at h
  cases e with
  | store i v => exact ⟨i, v, rfl⟩
  | reg d v => exact absurd rfl h
  | none => exact absurd rfl h

/-- An instruction that may do a register write has that register as its destination. -/
theorem allowed_reg_iff (i : Instr) (s : State) (d : Reg) (v : Word) :
    Allowed i s (.reg d v) ↔ destination i = some d := Iff.rfl

/-- Only sw may store. -/
theorem mnemonic_of_allowed_store (i : Instr) (s : State) (a : Nat) (v : Word) (h : Allowed i s (.store a v)) :
    i.mnemonic = .sw := by
  obtain ⟨-, rs, rt, imm, rfl, -⟩ := h
  rfl

/-- From an aligned pc every landing but that of jr and jalr is aligned. -/
theorem jumpRegister_of_lands_unaligned (i : Instr) (s : State) (target : Word) (h : Lands i s target)
    (hpc : s.pc.toNat % 4 = 0) (ht : target.toNat % 4 ≠ 0) : ∃ rs ign, i = .jr rs ign ∨ i = .jalr rs ign := by
  obtain rfl | ⟨imm, rfl⟩ | ⟨index, rfl⟩ | ⟨rs, ign, rfl⟩ | ⟨rs, ign, rfl⟩ := h
  · exact absurd (pc4_aligned _ hpc) ht
  · exact absurd (branchTarget_aligned _ imm hpc) ht
  · exact absurd (jtarget_aligned _ index) ht
  · exact ⟨rs, ign, .inl rfl⟩
  · exact ⟨rs, ign, .inr rfl⟩

/-- The step of a machine that fetches `w` runs `w`. -/
theorem Fetches.step_eq {s : State} {w : Word} (h : Fetches s w) : step s = execWord w s := by
  rw [step_of_program s h.running h.notHalted h.aligned h.inProgram, h.word]

/-- An Invalid word that completes only moves the pc to pc4 (R190). -/
theorem execInvalid_next (w : Word) (s t : State) (h : execInvalid w s = .next t) :
    t = Effect.none.apply (pc4 s.pc) (invalidKind w) s := by
  obtain ⟨-, he⟩ | ⟨-, he⟩ := execInvalid_cases w s
  · simp [he] at h
  · rw [he] at h
    injection h with h
    exact h.symm

end Sys2Proof.Machine

open Sys2Proof Sys2Proof.Machine

/-- Settles O39: a completed step is one Effect, which stores at most one word below MEM_WORDS. -/
theorem stepsKeepTheInvariant : Obligations.StepsKeepTheInvariant := by
  intro s t hs hstep
  obtain ⟨e, target, k, rfl, hstore⟩ := step_next_effect s t hstep
  exact Effect.apply_inv e target k s hs hstore

/-- Settles O31: the Effect of the decoded instruction writes no register but its destination. -/
theorem oneRegisterWriterPerCycle : Obligations.OneRegisterWriterPerCycle := by
  intro s t w hw hstep
  rw [hw.step_eq] at hstep
  constructor
  · intro i hi r hr
    rw [execWord_of_decode w s i hi] at hstep
    obtain ⟨e, target, rfl, hallowed, -⟩ := exec_next_cases i s t hstep
    obtain ⟨v, rfl⟩ := Effect.eq_reg_of_changed e target _ s r hr
    exact (allowed_reg_iff i s r v).1 hallowed
  · intro reject hreject r
    rw [execWord_of_reject w s reject hreject] at hstep
    rw [execInvalid_next w s t hstep]
    exact (Effect.none_movesOnly _ _ _).regs r

/-- Settles O34: pc4, branch targets and jump targets are aligned, so the landing is that of jr or jalr. -/
theorem onlyJumpRegisterLeavesAlignment : Obligations.OnlyJumpRegisterLeavesAlignment := by
  intro s t w hw hstep ht
  rw [hw.step_eq] at hstep
  cases hd : decode w with
  | ok i =>
    rw [execWord_of_decode w s i hd] at hstep
    obtain ⟨e, target, rfl, -, hlands⟩ := exec_next_cases i s t hstep
    rw [Effect.apply_pc] at ht
    obtain ⟨rs, ign, rfl | rfl⟩ := jumpRegister_of_lands_unaligned i s target hlands hw.aligned ht
    · exact ⟨rs, ign, .inl rfl⟩
    · exact ⟨rs, ign, .inr rfl⟩
  | error reject =>
    rw [execWord_of_reject w s reject hd] at hstep
    rw [execInvalid_next w s t hstep, Effect.apply_pc] at ht
    exact absurd (pc4_aligned _ hw.aligned) ht

/-- Settles O35: no Effect touches the program, the parameters or the fault record, and only a machine without a fault
completes a step. -/
theorem stepsKeepTheProgramAndTheParameters : Obligations.StepsKeepTheProgramAndTheParameters := by
  intro s t hstep
  obtain ⟨hraised, -⟩ := step_next_cases s t hstep
  obtain ⟨e, target, k, rfl, -⟩ := step_next_effect s t hstep
  simp [hraised]

end

section
/-! What the cycle reads (10_state.md R29 to R31): the registers, the pc and the parameters, DMEM in lw alone, and the word
at the pc. Two machines alike in these do the same: the same fault or refusal, or the same Effect on each. -/

namespace Sys2Proof.Machine

/-- Two machines with the same registers, pc and parameters. -/
structure SameOperands (s u : State) : Prop where
  reg : ∀ r, u.reg r = s.reg r
  pc  : u.pc = s.pc
  cfg : u.cfg = s.cfg

/-- The outcomes, of `s` and of `u`, are the same stop or the same Effect. -/
inductive SameAnswer (s u : State) : Result → Result → Prop
  | fault (f : Fault) : SameAnswer s u (.fault f) (.fault f)
  | refused (r : Refusal) : SameAnswer s u (.refused r) (.refused r)
  | next (e : Effect) (target : Word) (k : Kind) :
    SameAnswer s u (.next (e.apply target k s)) (.next (e.apply target k u))

/-- Same answers agree up to any relation that every Effect keeps. -/
theorem SameAnswer.agree {s u : State} {o p : Result} (h : SameAnswer s u o p) (R : State → State → Prop)
    (hR : ∀ (e : Effect) (target : Word) (k : Kind), R (e.apply target k s) (e.apply target k u)) : Agree R o p := by
  cases h with
  | fault f => exact rfl
  | refused r => exact rfl
  | next e target k => exact hR e target k

theorem SameAnswer.finishPc (s u : State) (k : Kind) (target : Word) :
    SameAnswer s u (finishPc k target s) (finishPc k target u) :=
  .next .none target k

section
variable {s u : State} (h : SameOperands s u)
include h

theorem SameOperands.checkData (ea : Word) : checkData u ea = checkData s ea := by
  unfold Machine.checkData
  rw [h.pc, h.cfg]

theorem SameOperands.finishReg (k : Kind) (d : Reg) (v : Word) :
    SameAnswer s u (finishReg k d v s) (finishReg k d v u) := by
  rw [finishReg_eq, finishReg_eq, h.pc]
  exact .next _ _ _

theorem SameOperands.finishStore (i : Nat) (v : Word) : SameAnswer s u (finishStore i v s) (finishStore i v u) := by
  rw [finishStore_eq, finishStore_eq, h.pc]
  exact .next _ _ _

theorem SameOperands.finishLink (k : Kind) (target : Word) :
    SameAnswer s u (finishLink k target s) (finishLink k target u) := by
  rw [finishLink_eq, finishLink_eq, h.pc]
  exact .next _ _ _

end

/-- An instruction reads nothing but registers, pc and parameters, and DMEM if it is lw. -/
theorem SameOperands.exec {s u : State} (h : SameOperands s u) (i : Instr) (hd : i.mnemonic = .lw → u.dmem = s.dmem) :
    SameAnswer s u (exec i s) (exec i u) := by
  cases i
  case add rs rt rd ign =>
    simp only [Machine.exec, execAdd, h.reg, h.pc]
    split
    · exact .fault _
    · exact h.finishReg _ _ _
  case sub rs rt rd ign =>
    simp only [Machine.exec, execSub, h.reg, h.pc]
    split
    · exact .fault _
    · exact h.finishReg _ _ _
  case addi rs rt imm =>
    simp only [Machine.exec, execAddi, h.reg, h.pc]
    split
    · exact .fault _
    · exact h.finishReg _ _ _
  case lw rs rt imm =>
    simp only [Machine.exec, execLw, h.reg, h.checkData, hd rfl]
    split
    · exact .fault _
    · exact h.finishReg _ _ _
  case sw rs rt imm =>
    simp only [Machine.exec, execSw, h.reg, h.checkData]
    split
    · exact .fault _
    · exact h.finishStore _ _
  case jalr rs ign =>
    simp only [Machine.exec, execJalr, h.reg, h.pc, h.cfg]
    split
    · split
      · exact .fault _
      · exact h.finishLink _ _
      · exact h.finishLink _ _
    · exact h.finishLink _ _
  case beq | bne | j | jr =>
    simp only [Machine.exec, execBeq, execBne, execJ, execJr, h.reg, h.pc]
    exact .finishPc s u _ _
  case jal index =>
    simp only [Machine.exec, execJal, h.pc]
    exact h.finishLink _ _
  case srl | sltiu =>
    simp only [Machine.exec, execSrl, execSltiu, h.reg, h.cfg]
    exact h.finishReg _ _ _
  case addu | subu | and | or | nor | slt | sltu | sll =>
    simp only [Machine.exec, execAddu, execSubu, execAnd, execOr, execNor, execSlt, execSltu, execSll, h.reg]
    exact h.finishReg _ _ _
  case addiu | andi | ori | lui | slti =>
    simp only [Machine.exec, execAddiu, execAndi, execOri, execLui, execSlti, h.reg]
    exact h.finishReg _ _ _

/-- An Invalid word reads the pc and INVALID_POLICY. -/
theorem SameOperands.execInvalid {s u : State} (h : SameOperands s u) (w : Word) :
    SameAnswer s u (execInvalid w s) (execInvalid w u) := by
  unfold Machine.execInvalid
  rw [h.pc, h.cfg]
  split
  · exact .fault _
  · exact .finishPc s u _ _

theorem SameOperands.execWord {s u : State} (h : SameOperands s u) (hd : u.dmem = s.dmem) (w : Word) :
    SameAnswer s u (execWord w s) (execWord w u) := by
  cases hw : decode w with
  | ok i =>
    rw [execWord_of_decode w s i hw, execWord_of_decode w u i hw]
    exact h.exec i fun _ => hd
  | error r =>
    rw [execWord_of_reject w s r hw, execWord_of_reject w u r hw]
    exact h.execInvalid w

/-- A step reads besides the fault record, DMEM and what the fetch answers. -/
theorem SameOperands.step {s u : State} (h : SameOperands s u) (hd : u.dmem = s.dmem) (hr : u.raised = s.raised)
    (hf : fetch u = fetch s) : SameAnswer s u (step s) (step u) := by
  cases hs : s.raised with
  | some f =>
    rw [step_of_raised s f hs, step_of_raised u f (hr.trans hs)]
    exact .fault f
  | none =>
    by_cases hp : s.pc = sentinel
    · rw [step_of_sentinel s hs hp, step_of_sentinel u (hr.trans hs) (h.pc.trans hp)]
      exact .refused .halted
    · rw [step_of_running s hs hp, step_of_running u (hr.trans hs) (h.pc ▸ hp), hf]
      cases fetch s with
      | error f => exact .fault f
      | ok w => exact h.execWord hd w

/-- The fetch reads no word at or past PROG_LEN (R30, R203). -/
theorem fetch_write_past_program (s : State) (k : Nat) (v : Word) (hk : s.progLen ≤ k) :
    fetch { s with imem := s.imem.write k v } = fetch s := by
  obtain ⟨ha, hf⟩ | ⟨ha, hl, hf⟩ | ⟨ha, hl, hf⟩ := fetch_cases s
  · rw [hf]
    exact fetch_of_misaligned _ ha
  · rw [hf]
    exact fetch_past_program _ ha hl
  · rw [hf, ← Memory.read_write_other s.imem k (s.pc.toNat / 4) v (by omega)]
    exact fetch_of_program _ ha hl

end Sys2Proof.Machine

open Sys2Proof Sys2Proof.Machine

/-- Settles O32: a changed word of DMEM is a store, which only sw may do; and no instruction but lw reads DMEM. -/
theorem onlyLwReadsAndOnlySwWritesDataMemory : Obligations.OnlyLwReadsAndOnlySwWritesDataMemory := by
  constructor
  · intro i s t k hexec hk
    obtain ⟨e, target, rfl, hallowed, -⟩ := exec_next_cases i s t hexec
    obtain ⟨a, v, rfl⟩ := Effect.eq_store_of_changed e target _ s k hk
    exact mnemonic_of_allowed_store i s a v hallowed
  · intro i s m hi
    have hsame : SameOperands s { s with dmem := m } := ⟨fun _ => rfl, rfl, rfl⟩
    exact (hsame.exec i fun hlw => absurd hlw hi).agree _ fun e _ _ => by cases e <;> rfl

/-- Settles O36: the step reads no counter, and every Effect only adds to them. -/
theorem countersAreUnobservable : Obligations.CountersAreUnobservable := by
  intro s st
  have hsame : SameOperands s { s with stats := st } := ⟨fun _ => rfl, rfl, rfl⟩
  exact (hsame.step rfl rfl rfl).agree _ fun e _ _ => by cases e <;> rfl

/-- Settles O37: IMEM is read by the fetch alone, below PROG_LEN. -/
theorem wordsPastTheProgramAreUnread : Obligations.WordsPastTheProgramAreUnread := by
  intro s k v hk
  have hsame : SameOperands s { s with imem := s.imem.write k v } := ⟨fun _ => rfl, rfl, rfl⟩
  exact (hsame.step rfl rfl (fetch_write_past_program s k v hk)).agree _ fun e _ _ => by cases e <;> rfl

end

section
/-! How a cycle stops (60_exceptions.md R99, R200, R209; 40_datapath.md R100): every fault records the pc of its cycle, only
the halted machine is refused a step, and a stopped machine is never left. -/

namespace Sys2Proof.Machine

/-! ### The pc that a fault records (R200) -/

theorem checkData_error_pc (s : State) (ea : Word) (f : Fault) (h : checkData s ea = .error f) : f.pc = s.pc := by
  obtain ⟨i, rfl⟩ := checkData_error s ea f h
  rfl

theorem fetch_error_pc (s : State) (f : Fault) (h : fetch s = .error f) : f.pc = s.pc := by
  obtain ⟨-, he⟩ | ⟨-, -, he⟩ | ⟨-, -, he⟩ := fetch_cases s
  all_goals
    rw [he] at h
    cases h
  · rfl
  · rfl

/-- add, sub, addi and jalr record the pc themselves, lw and sw through CheckData; no other instruction faults (R90). -/
theorem exec_fault_pc (i : Instr) (s : State) (f : Fault) (h : exec i s = .fault f) : f.pc = s.pc := by
  cases i
  case add rs rt rd ign =>
    simp only [exec, execAdd, raise, finishReg_eq] at h
    split at h <;> cases h
    rfl
  case sub rs rt rd ign =>
    simp only [exec, execSub, raise, finishReg_eq] at h
    split at h <;> cases h
    rfl
  case addi rs rt imm =>
    simp only [exec, execAddi, raise, finishReg_eq] at h
    split at h <;> cases h
    rfl
  case lw rs rt imm =>
    simp only [exec, execLw, raise, finishReg_eq] at h
    split at h <;> cases h
    next hc => exact checkData_error_pc _ _ _ hc
  case sw rs rt imm =>
    simp only [exec, execSw, raise, finishStore_eq] at h
    split at h <;> cases h
    next hc => exact checkData_error_pc _ _ _ hc
  case jalr rs ign =>
    simp only [exec, execJalr, raise, finishLink_eq] at h
    split at h
    · split at h <;> cases h
      rfl
    · cases h
  all_goals cases h

theorem execInvalid_fault_pc (w : Word) (s : State) (f : Fault) (h : execInvalid w s = .fault f) : f.pc = s.pc := by
  obtain ⟨-, he⟩ | ⟨-, he⟩ := execInvalid_cases w s
  · rw [he] at h
    cases h
    rfl
  · rw [he] at h
    cases h

theorem execWord_fault_pc (w : Word) (s : State) (f : Fault) (h : execWord w s = .fault f) : f.pc = s.pc := by
  cases hw : decode w with
  | ok i => exact exec_fault_pc i s f (execWord_of_decode w s i hw ▸ h)
  | error r => exact execInvalid_fault_pc w s f (execWord_of_reject w s r hw ▸ h)

/-- A fault that a step raises, at the fetch or by the fetched word, records the machine's pc (R99, R200). -/
theorem step_fault_pc (s : State) (f : Fault) (hr : s.raised = none) (h : step s = .fault f) : f.pc = s.pc := by
  by_cases hp : s.pc = sentinel
  · rw [step_of_sentinel s hr hp] at h
    cases h
  · rw [step_of_running s hr hp] at h
    cases hf : fetch s with
    | error g =>
      rw [hf] at h
      cases h
      exact fetch_error_pc s f hf
    | ok w =>
      rw [hf] at h
      exact execWord_fault_pc w s f h

/-! ### Refusal -/

theorem execWord_ne_refused (w : Word) (s : State) (r : Refusal) : execWord w s ≠ .refused r := by
  cases hw : decode w with
  | ok i =>
    rw [execWord_of_decode w s i hw]
    exact exec_ne_refused i s r
  | error e =>
    rw [execWord_of_reject w s e hw]
    obtain ⟨-, he⟩ | ⟨-, he⟩ := execInvalid_cases w s <;> simp [he]

theorem step_ne_refused_of_running (s : State) (hr : s.raised = none) (hp : s.pc ≠ sentinel) (r : Refusal) :
    step s ≠ .refused r := by
  rw [step_of_running s hr hp]
  cases fetch s with
  | error f => simp
  | ok w => exact execWord_ne_refused w s r

theorem status_halted_iff (s : State) : s.status = .halted ↔ s.raised = none ∧ s.pc = sentinel := by
  cases hr : s.raised with
  | some f => simp [State.status_of_raised s f hr]
  | none =>
    by_cases hp : s.pc = sentinel
    · simp [State.status_of_sentinel s hr hp, hp]
    · simp [State.status_of_running s hr hp, hp]

/-- A step is refused with `halted` by the halted machine, and by no other (R100, R233). -/
theorem step_refused_iff (s : State) (r : Refusal) : step s = .refused r ↔ r = .halted ∧ s.status = .halted := by
  rw [status_halted_iff]
  cases hr : s.raised with
  | some f => simp [step_of_raised s f hr]
  | none =>
    by_cases hp : s.pc = sentinel
    · simp [step_of_sentinel s hr hp, hp, eq_comm]
    · simp [step_ne_refused_of_running s hr hp, hp]

/-! ### The engine's loop body -/

theorem advance_of_halted (s : State) (h : s.status = .halted) : advance s = s := by
  simp [advance, h]

theorem advance_of_faulted (s : State) (f : Fault) (h : s.raised = some f) : advance s = s := by
  simp [advance, State.status_of_raised s f h]

/-- The cycle that faults ends in the faulted state (R99). -/
theorem advance_of_fault (s : State) (f : Fault) (hr : s.raised = none) (h : step s = .fault f) :
    advance s = s.recordFault f := by
  have hp : s.pc ≠ sentinel := by
    intro hp
    rw [step_of_sentinel s hr hp] at h
    cases h
  simp [advance, State.status_of_running s hr hp, h]

end Sys2Proof.Machine

open Sys2Proof Sys2Proof.Machine

/-- Settles O28: a running machine's fetch and word answer a next state or a fault, never a refusal. -/
theorem stepIsRefusedOnlyWhenHalted : Obligations.StepIsRefusedOnlyWhenHalted :=
  fun s => ⟨status_halted_iff s, step_refused_iff s, advance_of_halted s⟩

/-- Settles O29: the faulting cycle ends in `recordFault`, which changes the fault record and the counters alone. -/
theorem faultsAreRecordedAndFinal : Obligations.FaultsAreRecordedAndFinal := by
  intro s f hr h
  have hraised : (s.recordFault f).raised = some f := State.recordFault_raised s f
  rw [advance_of_fault s f hr h]
  exact ⟨step_fault_pc s f hr h, State.reg_recordFault s f, rfl, rfl, rfl, rfl, rfl,
    State.status_of_raised _ f hraised, step_of_raised _ f hraised, advance_of_faulted _ f hraised⟩

end

section
/-! The canonical form of a memory is determined by what it reads (10_state.md R29, R47; log 13). -/

namespace Sys2Proof.Machine.Memory

/-- An index that does not read 0 is listed, with the word it reads. -/
theorem mem_of_read_ne_zero (m : Memory) (k : Nat) (h : Memory.read m k ≠ 0#32) : (k, Memory.read m k) ∈ m := by
  induction m with
  | nil => exact absurd rfl h
  | cons c m ih =>
    obtain ⟨a, v⟩ := c
    rw [read_cons] at h ⊢
    by_cases ha : a = k
    · simp [ha]
    · rw [if_neg ha] at h ⊢
      exact List.mem_cons_of_mem _ (ih h)

/-- The cells of a canonical memory are the non-zero words it reads. -/
theorem mem_iff_read (m : Memory) (hm : m.wf = true) (k : Nat) (v : Word) :
    (k, v) ∈ m ↔ Memory.read m k = v ∧ v ≠ 0#32 := by
  obtain ⟨hrise, hzero⟩ := (wf_iff m).1 hm
  constructor
  · intro h
    exact ⟨read_of_mem m hrise k v h, hzero (k, v) h⟩
  · rintro ⟨rfl, hv⟩
    exact mem_of_read_ne_zero m k hv

/-- Two lists of cells with rising indexes and the same cells are the same list. -/
theorem eq_of_rising_of_mem_iff (m n : Memory) (hm : m.Pairwise fun c d => c.1 < d.1)
    (hn : n.Pairwise fun c d => c.1 < d.1) (h : ∀ c, c ∈ m ↔ c ∈ n) : m = n := by
  have hirrefl : Std.Irrefl fun c d : Nat × Word => c.1 < d.1 := ⟨fun _ => Nat.lt_irrefl _⟩
  have hantisymm : Std.Antisymm fun c d : Nat × Word => c.1 < d.1 := ⟨fun _ _ h h' => absurd h' (Nat.lt_asymm h)⟩
  exact hm.eq_of_mem_iff hn h

end Sys2Proof.Machine.Memory

open Sys2Proof Sys2Proof.Machine

/-- Settles O46: the reads determine the cells, and rising indexes their order. -/
theorem canonicalMemoriesAreDeterminedByTheirReads : Obligations.CanonicalMemoriesAreDeterminedByTheirReads := by
  intro m n hm hn hread
  refine Memory.eq_of_rising_of_mem_iff m n ((Memory.wf_iff m).1 hm).1 ((Memory.wf_iff n).1 hn).1 ?_
  rintro ⟨k, v⟩
  rw [Memory.mem_iff_read m hm, Memory.mem_iff_read n hn, hread k]

end

section
/-! The image and the state after boot (10_state.md R34; 20_memory.md R44; 60_exceptions.md R220). -/

namespace Sys2Proof.Machine

/-- One record's word, its first byte the most significant (R44). -/
theorem wordOfBytes_toNat (b0 b1 b2 b3 : Byte) :
    (wordOfBytes b0 b1 b2 b3).toNat = b0.toNat * 2 ^ 24 + b1.toNat * 2 ^ 16 + b2.toNat * 2 ^ 8 + b3.toNat := by
  unfold wordOfBytes
  rw [BitVec.toNat_append, BitVec.toNat_append, BitVec.toNat_append, ← Nat.shiftLeft_add_eq_or_of_lt b3.isLt,
    ← Nat.shiftLeft_add_eq_or_of_lt b2.isLt, ← Nat.shiftLeft_add_eq_or_of_lt b1.isLt]
  simp only [Nat.shiftLeft_eq]
  omega

/-- The word of record `k` of an image. -/
def recordWord (image : List Byte) (k : Nat) : Word :=
  wordOfBytes (image.getD (4 * k) 0#8) (image.getD (4 * k + 1) 0#8) (image.getD (4 * k + 2) 0#8)
    (image.getD (4 * k + 3) 0#8)

/-- The words of all records of an image, in order. -/
def recordWords (image : List Byte) : List Word := (List.range (image.length / 4)).map (recordWord image)

@[simp] theorem recordWords_length (image : List Byte) : (recordWords image).length = image.length / 4 := by
  simp [recordWords]

theorem recordWords_getD (image : List Byte) (k : Nat) (hk : k < image.length / 4) :
    (recordWords image).getD k 0#32 = recordWord image k := by
  simp [recordWords, hk]

/-- The record after the first is the first record of the rest. -/
theorem recordWord_succ (b0 b1 b2 b3 : Byte) (rest : List Byte) (k : Nat) :
    recordWord (b0 :: b1 :: b2 :: b3 :: rest) (k + 1) = recordWord rest k := rfl

theorem recordWords_cons (b0 b1 b2 b3 : Byte) (rest : List Byte) :
    recordWords (b0 :: b1 :: b2 :: b3 :: rest) = wordOfBytes b0 b1 b2 b3 :: recordWords rest := by
  have hlen : (b0 :: b1 :: b2 :: b3 :: rest).length / 4 = rest.length / 4 + 1 := by
    simp only [List.length_cons]
    omega
  unfold recordWords
  rw [hlen, List.range_succ_eq_map, List.map_cons, List.map_map]
  rfl

/-- Whole records assemble to their words, any other image to no program (R44, R220). -/
theorem assembleImage_eq : ∀ image : List Byte,
    assembleImage image = if image.length % 4 = 0 then .ok (recordWords image) else .error .partialRecord
  | [] => rfl
  | [_] | [_, _] | [_, _, _] => rfl
  | b0 :: b1 :: b2 :: b3 :: rest => by
    have hlen : (b0 :: b1 :: b2 :: b3 :: rest).length % 4 = rest.length % 4 := by
      simp only [List.length_cons]
      omega
    rw [assembleImage, assembleImage_eq rest, hlen, recordWords_cons]
    by_cases h : rest.length % 4 = 0
    · simp [h]
    · simp [h]

/-- Record `k` of the image, big-endian, is the word that the loaded program holds at index `k`. -/
theorem read_recordWords (image : List Byte) (k : Nat) (hk : k < image.length / 4) :
    Memory.read (Memory.ofWordsFrom 0 (recordWords image)) k = recordWord image k := by
  rw [← recordWords_getD image k hk, ← Memory.read_ofWordsFrom 0 k, Nat.zero_add]

/-! ### bootImage, by the length of the image -/

theorem bootImage_of_partialRecord (c : Config) (image : List Byte) (h : image.length % 4 ≠ 0) :
    bootImage c image = .error .partialRecord := by
  rw [bootImage, assembleImage_eq, if_neg h]

theorem bootImage_of_tooLong (c : Config) (image : List Byte) (h : image.length % 4 = 0)
    (hlen : c.imemWords < image.length / 4) : bootImage c image = .error .tooLong := by
  rw [bootImage, assembleImage_eq, if_pos h]
  simp [hlen]

theorem bootImage_of_records (c : Config) (image : List Byte) (h : image.length % 4 = 0)
    (hlen : image.length / 4 ≤ c.imemWords) :
    bootImage c image = .ok ((State.boot c).loadProgram (recordWords image)) := by
  rw [bootImage, assembleImage_eq, if_pos h]
  simp [hlen]

/-- A boot that succeeds loads some program into the reset state. -/
theorem bootImage_ok (c : Config) (image : List Byte) (s : State) (h : bootImage c image = .ok s) :
    ∃ ws, s = (State.boot c).loadProgram ws := by
  unfold bootImage at h
  split at h
  · cases h
  · split at h <;> cases h
    exact ⟨_, rfl⟩

/-! ### The reset state -/

theorem reg_boot_link (c : Config) : (State.boot c).reg linkReg = sentinel := State.reg_boot c linkReg

theorem reg_boot_initRegs (c : Config) (r : Fin 31) : (State.boot c).reg (BitVec.ofNat 5 r) = c.initRegs[r] := by
  have hr : (BitVec.ofNat 5 r).toNat = r := by
    rw [BitVec.toNat_ofNat]
    omega
  simp [State.reg_boot, hr]

/-- The reset state with any program loaded meets the invariant: DMEM is empty, the counters are 0, and the program lies in
canonical form below its own length. -/
theorem inv_boot_loadProgram (c : Config) (ws : List Word) : Inv ((State.boot c).loadProgram ws) where
  dmemWf := Memory.wf_nil
  dmemBound := Memory.below_nil _
  imemWf := Memory.wf_ofWordsFrom 0 ws
  imemBound := Memory.below_ofWordsFrom ws
  counted := rfl
  subcounts := Nat.le_refl 0

/-- State.reset is the reference boot with the empty program. -/
theorem reset_eq_loadProgram_nil : State.reset = (State.boot Config.reference).loadProgram [] := rfl

theorem reg_reset_of_ne_link (r : Reg) (h : r ≠ linkReg) : State.reset.reg r = 0#32 := by
  have hr : r.toNat < 31 := by
    have hne : r.toNat ≠ 31 := fun h' => h (BitVec.eq_of_toNat_eq h')
    omega
  rw [State.reset, State.reg_boot, dif_pos hr]
  simp [Config.reference]

end Sys2Proof.Machine

open Sys2Proof Sys2Proof.Machine

/-- Settles O40: the image assembles to its record words, which the loaded program holds in order. -/
theorem bootLoadsTheImageAndTheResetValues : Obligations.BootLoadsTheImageAndTheResetValues := by
  intro c image
  refine ⟨bootImage_of_partialRecord c image, bootImage_of_tooLong c image, fun h hlen => ?_⟩
  refine ⟨_, bootImage_of_records c image h hlen, reg_boot_link c, reg_boot_initRegs c, rfl, fun _ => rfl,
    recordWords_length image, fun k hk => ?_, rfl, rfl, rfl, rfl, rfl, rfl, rfl, rfl⟩
  rw [State.loadProgram_imem, read_recordWords image k hk, recordWord, wordOfBytes_toNat]

/-- Settles O41: State.reset is the boot from the reference parameters. -/
theorem resetIsTheReferenceBoot : Obligations.ResetIsTheReferenceBoot :=
  ⟨reg_boot_link Config.reference, reg_reset_of_ne_link, rfl, fun _ => rfl, rfl, by decide, rfl⟩

/-- Settles O42: reset and every successful boot are a reset state with a program loaded. -/
theorem bootStatesMeetTheInvariant : Obligations.BootStatesMeetTheInvariant := by
  constructor
  · rw [reset_eq_loadProgram_nil]
    exact inv_boot_loadProgram _ _
  · intro c image s h
    obtain ⟨ws, rfl⟩ := bootImage_ok c image s h
    exact inv_boot_loadProgram c ws

end

section
/-! A load after a store (20_memory.md R47, R50): a completed sw is the one store at its word index, and lw reads what that
store left. -/

namespace Sys2Proof.Machine

/-- A completed sw has passed CheckData, and is the store of x[rt] at the word index of its address (R161). -/
theorem exec_sw_next (rs rt : Reg) (imm : Imm16) (s t : State) (h : exec (.sw rs rt imm) s = .next t) :
    t = (Effect.store ((effAddr (s.reg rs) imm).toNat / 4) (s.reg rt)).apply (pc4 s.pc) .mem s := by
  simp only [exec, execSw, raise, finishStore_eq] at h
  split at h
  · cases h
  next i hcheck =>
    obtain ⟨rfl, -, -⟩ := checkData_ok _ _ _ hcheck
    cases h
    rfl

/-- lw at a legal address completes with the word of DMEM at its word index (R160). -/
theorem exec_lw_completes (rs rt : Reg) (imm : Imm16) (s : State) (hpos : (effAddr (s.reg rs) imm).toNat < 2 ^ 31)
    (hin : (effAddr (s.reg rs) imm).toNat / 4 < s.cfg.memWords) :
    Completes (exec (.lw rs rt imm) s) fun t => t.reg rt = s.dmem.read ((effAddr (s.reg rs) imm).toNat / 4) := by
  rw [exec_lw_of_checkData_ok rs rt imm s _ (checkData_of_legal s _ hpos hin)]
  exact ⟨_, finishReg_eq _ _ _ _, Effect.reg_value _ _ _ _ _⟩

end Sys2Proof.Machine

open Sys2Proof Sys2Proof.Machine

/-- Settles O19: the load reads the DMEM that the store's one Effect left. -/
theorem loadReturnsTheLastStore : Obligations.LoadReturnsTheLastStore := by
  intro rs rt rs' rt' imm imm' s t hsw hpos hin
  have hread : ∀ a, t.dmem.read a =
      if a = (effAddr (s.reg rs) imm).toNat / 4 then s.reg rt else s.dmem.read a := by
    intro a
    rw [exec_sw_next rs rt imm s t hsw, Effect.apply_dmem_read]
  obtain ⟨u, hu, hreg⟩ := exec_lw_completes rs' rt' imm' t hpos hin
  exact ⟨u, hu, hreg.trans (hread _)⟩

end

section
/-! The encoding (30_encoding.md R61 to R67, 40_datapath.md R82, R83): the decoder and the encoder are inverse to each other,
the resolver reads off the mnemonic, and the words both reject are those outside the two tables. -/

namespace Sys2Proof

/-! ### The fields as numbers (R61) -/

/-- A field is the word shifted down to it and cut to its width. -/
theorem field_toNat (w : Word) (i k : Nat) : (w.extractLsb' i k).toNat = w.toNat / 2 ^ i % 2 ^ k := by
  rw [BitVec.extractLsb'_toNat, Nat.shiftRight_eq_div_pow]

/-- A field at bit 0 is the word cut to its width. -/
theorem field_zero_toNat (w : Word) (k : Nat) : (w.extractLsb' 0 k).toNat = w.toNat % 2 ^ k := by
  rw [field_toNat, Nat.pow_zero, Nat.div_one]

/-- The opcode is the word's top field, so nothing is cut off above it. -/
theorem opcodeOf_toNat (w : Word) : (opcodeOf w).toNat = w.toNat / 2 ^ 26 := by
  have hw := w.isLt
  rw [opcodeOf, field_toNat]
  omega

/-! ### Decoding an encoded instruction -/

theorem decode_encode : ∀ i : Instr, decode (encode i) = .ok i
  | .add .. => Laws.RoundTrip.add ..
  | .addu .. => Laws.RoundTrip.addu ..
  | .sub .. => Laws.RoundTrip.sub ..
  | .subu .. => Laws.RoundTrip.subu ..
  | .and .. => Laws.RoundTrip.and ..
  | .or .. => Laws.RoundTrip.or ..
  | .nor .. => Laws.RoundTrip.nor ..
  | .slt .. => Laws.RoundTrip.slt ..
  | .sltu .. => Laws.RoundTrip.sltu ..
  | .sll .. => Laws.RoundTrip.sll ..
  | .srl .. => Laws.RoundTrip.srl ..
  | .jr .. => Laws.RoundTrip.jr ..
  | .jalr .. => Laws.RoundTrip.jalr ..
  | .addi .. => Laws.RoundTrip.addi ..
  | .addiu .. => Laws.RoundTrip.addiu ..
  | .andi .. => Laws.RoundTrip.andi ..
  | .ori .. => Laws.RoundTrip.ori ..
  | .lui .. => Laws.RoundTrip.lui ..
  | .slti .. => Laws.RoundTrip.slti ..
  | .sltiu .. => Laws.RoundTrip.sltiu ..
  | .lw .. => Laws.RoundTrip.lw ..
  | .sw .. => Laws.RoundTrip.sw ..
  | .beq .. => Laws.RoundTrip.beq ..
  | .bne .. => Laws.RoundTrip.bne ..
  | .j .. => Laws.RoundTrip.j ..
  | .jal .. => Laws.RoundTrip.jal ..

/-! ### Encoding a decoded word -/

/-- Opcode 0: the func code, the four fields between and the zero opcode make up the word (R64). -/
theorem encode_of_decodeFunc (w : Word) (i : Instr) (hop : opcodeOf w = 0#6) (h : decodeFunc w = .ok i) :
    encode i = w := by
  unfold decodeFunc at h
  split at h <;> cases h
  case h_3 hf | h_4 hf => exact encodeJumpReg_of_fields w _ hop hf
  all_goals exact encodeR_of_fields w _ hop ‹_›

/-- The decoder drops no bit of a word (R61, R67). -/
theorem encode_of_decode (w : Word) (i : Instr) (h : decode w = .ok i) : encode i = w := by
  unfold decode at h
  split at h
  case h_1 hop => exact encode_of_decodeFunc w i hop h
  all_goals cases h
  case h_2 hop | h_3 hop => exact encodeJ_of_fields w _ hop
  all_goals exact encodeI_of_fields w _ ‹_›

/-! ### The words outside the tables (R64 to R66) -/

/-- Opcode 0 with a func code of no row, or an opcode of no row. -/
def OutsideTables (w : Word) : Prop :=
  (opcodeOf w = 0#6 ∧ funcOf w ∉ Machine.funcTable.map Prod.fst) ∨
    opcodeOf w ∉ 0#6 :: Machine.opcodeTable.map Prod.fst

/-- Only decodeFunc's last arm rejects, and there the func code has missed every row. -/
theorem func_not_mem_of_decodeFunc_error (w : Word) (r : DecodeReject) (h : decodeFunc w = .error r) :
    funcOf w ∉ Machine.funcTable.map Prod.fst := by
  unfold decodeFunc at h
  split at h <;> cases h
  simp_all [Machine.funcTable]

/-- Opcode 0 rejects by its func code, and else only decode's last arm, where the opcode has missed every row. -/
theorem outsideTables_of_decode_error (w : Word) (r : DecodeReject) (h : decode w = .error r) : OutsideTables w := by
  unfold decode at h
  split at h
  case h_1 hop => exact .inl ⟨hop, func_not_mem_of_decodeFunc_error w r h⟩
  all_goals cases h
  right
  simp_all [Machine.opcodeTable]

end Sys2Proof

namespace Sys2Proof.Machine

/-! ### The resolver (R83) -/

/-- The resolver answers the mnemonic of an encoded instruction. -/
theorem resolve_encode (i : Instr) : resolve (opcodeOf (encode i)) (funcOf (encode i)) = i.mnemonic := by
  cases i
  case jr | jalr =>
    rw [encode, opcodeOf_encodeJumpReg, funcOf_encodeJumpReg]
    rfl
  case j | jal =>
    rw [encode, opcodeOf_encodeJ]
    rfl
  case add | addu | sub | subu | and | or | nor | slt | sltu | sll | srl =>
    rw [encode, opcodeOf_encodeR, funcOf_encodeR]
    rfl
  all_goals
    rw [encode, opcodeOf_encodeI]
    rfl

/-- A word that decodes is an encoding, so the resolver answers the instruction's mnemonic. -/
theorem resolve_of_decode (w : Word) (i : Instr) (h : decode w = .ok i) :
    resolve (opcodeOf w) (funcOf w) = i.mnemonic := by
  rw [← encode_of_decode w i h]
  exact resolve_encode i

theorem mnemonic_ne_invalid (i : Instr) : i.mnemonic ≠ .invalid := by
  cases i <;> exact Mnemonic.noConfusion

/-- A key of no row finds no row. -/
theorem lookup_eq_none_of_not_mem_keys (table : List (BitVec 6 × Mnemonic)) (k : BitVec 6)
    (h : k ∉ table.map Prod.fst) : table.lookup k = none := by
  rw [List.lookup_eq_none_iff]
  intro row hrow
  exact bne_iff_ne.2 fun hk => h (hk ▸ List.mem_map_of_mem hrow)

theorem resolve_of_outsideTables (w : Word) (h : OutsideTables w) : resolve (opcodeOf w) (funcOf w) = .invalid := by
  obtain ⟨hop, hf⟩ | hop := h
  · rw [resolve, if_pos hop, lookup_eq_none_of_not_mem_keys _ _ hf]
    rfl
  · obtain ⟨hzero, hrows⟩ := not_or.1 (List.mem_cons.not.1 hop)
    rw [resolve, if_neg hzero, lookup_eq_none_of_not_mem_keys _ _ hrows]
    rfl

/-- What resolves to Invalid does not decode, as no instruction has the mnemonic Invalid. -/
theorem decode_error_of_resolve_invalid (w : Word) (h : resolve (opcodeOf w) (funcOf w) = .invalid) :
    ∃ r, decode w = .error r := by
  cases hd : decode w with
  | ok i => exact absurd ((resolve_of_decode w i hd).symm.trans h) (mnemonic_ne_invalid i)
  | error r => exact ⟨r, rfl⟩

/-! ### The derived values (R63) -/

/-- boff reads as four times the signed immediate: at most 2^17 in size, it does not wrap. -/
theorem boff_toInt (imm : Imm16) : (boff imm).toInt = 4 * imm.toInt := by
  have hboff := boff_toNat imm
  have hlo := BitVec.le_toInt imm
  have hhi := BitVec.toInt_lt (x := imm)
  have hcond := BitVec.toInt_eq_toNat_cond (boff imm)
  split at hcond <;> omega

end Sys2Proof.Machine

open Sys2Proof Sys2Proof.Machine

/-- Settles O2: every constructor's word has its fields put in, and the tables give each constructor its own code. -/
theorem decodeReadsBackEncode : Obligations.DecodeReadsBackEncode :=
  decode_encode

/-- Settles O3: the code that chose the instruction and the fields it holds make up the whole word. -/
theorem encodeRestoresDecodedWord : Obligations.EncodeRestoresDecodedWord :=
  encode_of_decode

/-- Settles O4: the readings of the four operand forms, at the fields imm16 and imm26 of the word. -/
theorem decoderDerivesTheImmediates : Obligations.DecoderDerivesTheImmediates := by
  intro w pc
  refine ⟨simm_toInt (imm16Of w), ?_, boff_toInt (imm16Of w), ?_⟩
  · exact (zimm_toNat (imm16Of w)).trans (field_zero_toNat w 16)
  · exact (jtarget_toNat pc (imm26Of w)).trans (by rw [imm26Of, field_zero_toNat])

/-- Settles O5: a rejected word is outside the tables, there the resolver answers Invalid, and such a word is rejected. -/
theorem resolverAgreesWithDecoder : Obligations.ResolverAgreesWithDecoder := by
  intro w
  have houtside : (∃ r, decode w = .error r) → OutsideTables w := fun ⟨r, h⟩ => outsideTables_of_decode_error w r h
  have hinvalid := resolve_of_outsideTables w
  have hrejected := decode_error_of_resolve_invalid w
  exact ⟨resolve_of_decode w, ⟨hinvalid ∘ houtside, hrejected⟩, ⟨houtside, hrejected ∘ hinvalid⟩⟩

/-- Settles O1: the ten words are evaluated. -/
theorem sampleWordsDecode : Obligations.SampleWordsDecode := by
  unfold Obligations.SampleWordsDecode
  decide

/-- Settles O47: each field of the record is a slice of the word. -/
theorem decoderCutsEveryField : Obligations.DecoderCutsEveryField := fun w _ =>
  ⟨opcodeOf_toNat w, field_toNat w 21 5, field_toNat w 16 5, field_toNat w 11 5, field_toNat w 6 5,
    field_zero_toNat w 6, field_zero_toNat w 16, field_zero_toNat w 26⟩

end

section
/-! The fetch and the dispatch of the fetched word (40_datapath.md R81, R98), and the counters (R97). -/

namespace Sys2Proof.Machine

/-- A fetch that faults is the step's fault (R81, R99). -/
theorem step_of_fetch_error (s : State) (f : Fault) (hr : s.raised = none) (hp : s.pc ≠ sentinel)
    (h : fetch s = .error f) : step s = .fault f := by
  rw [step_of_running s hr hp, h]

/-- The class that R97 gives a word, read off its opcode. -/
def opcodeKind (op : BitVec 6) : Kind :=
  if op = 0x00#6 then .rType
  else if op = 0x02#6 ∨ op = 0x03#6 then .jType
  else if op = 0x04#6 ∨ op = 0x05#6 then .branch
  else if op = 0x23#6 ∨ op = 0x2B#6 then .mem
  else .iType

theorem kindOf_eq_opcodeKind (i : Instr) : kindOf i = opcodeKind (opcodeOf (encode i)) := by
  cases i
  case add | addu | sub | subu | and | or | nor | slt | sltu | sll | srl =>
    rw [encode, opcodeOf_encodeR]
    rfl
  case jr | jalr =>
    rw [encode, opcodeOf_encodeJumpReg]
    rfl
  case j | jal =>
    rw [encode, opcodeOf_encodeJ]
    rfl
  all_goals
    rw [encode, opcodeOf_encodeI]
    rfl

theorem invalidKind_eq_opcodeKind (w : Word) (h : OutsideTables w) : invalidKind w = opcodeKind (opcodeOf w) := by
  rw [invalidKind, opcodeKind]
  obtain ⟨hop, -⟩ | hop := h
  · rw [if_pos hop, if_pos hop]
  · simp_all [opcodeTable]

/-- A completed step counts its word in the class of the word's opcode. -/
theorem step_next_stats (s t : State) (w : Word) (hw : Fetches s w) (h : step s = .next t) :
    t.stats = (s.stats.classify (opcodeKind (opcodeOf w))).tick := by
  rw [hw.step_eq] at h
  cases hd : decode w with
  | ok i =>
    rw [execWord_of_decode w s i hd] at h
    obtain ⟨e, target, rfl, -, -⟩ := exec_next_cases i s t h
    rw [Effect.apply_stats, kindOf_eq_opcodeKind, encode_of_decode w i hd]
  | error r =>
    rw [execWord_of_reject w s r hd] at h
    rw [execInvalid_next w s t h, Effect.apply_stats,
      invalidKind_eq_opcodeKind w (outsideTables_of_decode_error w r hd)]

/-- The counters by opcode, as R97 lists them. -/
theorem classify_opcodeKind_tick (st : Statistics) (op : BitVec 6) :
    (st.classify (opcodeKind op)).tick =
      { cycles := st.cycles + 1
        rType := st.rType + (if op = 0x00 then 1 else 0)
        iType := st.iType + (if op = 0x00 ∨ op = 0x02 ∨ op = 0x03 then 0 else 1)
        jType := st.jType + (if op = 0x02 ∨ op = 0x03 then 1 else 0)
        branch := st.branch + (if op = 0x04 ∨ op = 0x05 then 1 else 0)
        mem := st.mem + (if op = 0x23 ∨ op = 0x2B then 1 else 0) } := by
  by_cases hr : op = 0x00#6
  · subst hr
    rfl
  by_cases hj : op = 0x02#6 ∨ op = 0x03#6
  · obtain rfl | rfl := hj <;> rfl
  by_cases hb : op = 0x04#6 ∨ op = 0x05#6
  · obtain rfl | rfl := hb <;> rfl
  by_cases hm : op = 0x23#6 ∨ op = 0x2B#6
  · obtain rfl | rfl := hm <;> rfl
  simp [opcodeKind, hr, hj, hb, hm, Statistics.classify, Statistics.tick]

end Sys2Proof.Machine

open Sys2Proof Sys2Proof.Machine

/-- Settles O26: the step of a machine that fetches a word is execWord, which dispatches on the decoder. -/
theorem stepRunsTheDecodedInstruction : Obligations.StepRunsTheDecodedInstruction := fun s w i hw hd =>
  hw.step_eq.trans (execWord_of_decode w s i hd)

/-- Settles O27: the fetch tests the alignment before PROG_LEN. -/
theorem fetchChecksAlignmentThenTheProgram : Obligations.FetchChecksAlignmentThenTheProgram := fun s hr hp =>
  ⟨fun ha => step_of_fetch_error s _ hr hp (fetch_of_misaligned s ha),
    fun ha hl => step_of_fetch_error s _ hr hp (fetch_past_program s ha hl), step_of_program s hr hp⟩

/-- Settles O33: the class is read off the opcode, for an Invalid word as for an instruction. -/
theorem countersClassifyEveryWord : Obligations.CountersClassifyEveryWord := by
  intro s t w hw h
  rw [step_next_stats s t w hw h, classify_opcodeKind_tick]
  exact ⟨rfl, rfl, rfl, rfl, rfl, rfl⟩

end

section
/-! exec in the datapath's terms (40_datapath.md R88 to R93): what of an instruction the ALU or CheckData can stop, and so which
instruction raises which fault (60_exceptions.md R200). -/

namespace Sys2Proof.Machine

/-- The end of a cycle that writes the ALU's result: `none` is the overflow fault (R88, R90). -/
def finishAlu (k : Kind) (dst : Reg) (r : Option Word) (s : State) : Result :=
  match r with
  | none => raise (.arithmeticOverflow s.pc)
  | some v => finishReg k dst v s

theorem finishAlu_ite (k : Kind) (dst : Reg) (c : Prop) [Decidable c] (v : Word) (s : State) :
    finishAlu k dst (if c then none else some v) s =
      if c then raise (.arithmeticOverflow s.pc) else finishReg k dst v s := by
  split <;> rfl

/-- The only fault of a cycle that writes the ALU's result is the overflow, at the cycle's pc. -/
theorem finishAlu_fault (k : Kind) (dst : Reg) (r : Option Word) (s : State) (f : Fault)
    (h : finishAlu k dst r s = .fault f) : f = .arithmeticOverflow s.pc := by
  cases r <;> cases h
  rfl

theorem exec_add_eq (rs rt rd ign : Reg) (s : State) :
    exec (.add rs rt rd ign) s = finishAlu .rType rd (aluRegister s.cfg (s.reg rs) (s.reg rt) ign 1) s :=
  (finishAlu_ite _ _ _ _ _).symm

theorem exec_sub_eq (rs rt rd ign : Reg) (s : State) :
    exec (.sub rs rt rd ign) s = finishAlu .rType rd (aluRegister s.cfg (s.reg rs) (s.reg rt) ign 10) s :=
  (finishAlu_ite _ _ _ _ _).symm

theorem exec_addi_eq (rs rt : Reg) (imm : Imm16) (s : State) :
    exec (.addi rs rt imm) s = finishAlu .iType rt (aluImmediate s.cfg (s.reg rs) (simm imm) (zimm imm) 0x08#6) s :=
  (finishAlu_ite _ _ _ _ _).symm

theorem exec_sltiu_eq (rs rt : Reg) (imm : Imm16) (s : State) :
    exec (.sltiu rs rt imm) s = finishAlu .iType rt (aluImmediate s.cfg (s.reg rs) (simm imm) (zimm imm) 0x0B#6) s := by
  simp only [exec, execSltiu, aluImmediate, finishAlu]
  cases s.cfg.sltiuImmExt <;> rfl

/-- jalr with rs = 31 faults under FAULT and goes to pc4 under NEW; in every other case it goes to x[rs] (R175). -/
theorem exec_jalr_eq (rs : Reg) (ign : BitVec 15) (s : State) :
    exec (.jalr rs ign) s =
      if rs = linkReg ∧ s.cfg.jalrLinkRead = .fault then raise (.unpredictableJalr s.pc (encode (.jalr rs ign)))
      else finishLink .rType (if rs = linkReg ∧ s.cfg.jalrLinkRead = .new then pc4 s.pc else s.reg rs) s := by
  simp only [exec, execJalr]
  by_cases hrs : rs = linkReg
  · cases s.cfg.jalrLinkRead <;> simp [hrs]
  · simp [hrs]

/-- A memory access: CheckData's fault, or the rest of the cycle at the index it answers (R45, R93). -/
def accessAt (ea : Word) (rest : Nat → Result) (s : State) : Result :=
  match checkData s ea with
  | .error f => raise f
  | .ok i => rest i

/-- An access whose rest never faults raises MemoryBoundsFault alone, at the cycle's pc (R202). -/
theorem accessAt_fault (ea : Word) (rest : Nat → Result) (s : State) (f : Fault) (h : accessAt ea rest s = .fault f)
    (hrest : ∀ i, rest i ≠ .fault f) : ∃ k, f = .memoryBounds k s.pc := by
  unfold accessAt at h
  split at h
  next g hcheck =>
    cases h
    exact checkData_error s ea f hcheck
  next i hcheck => exact absurd h (hrest i)

theorem exec_lw_eq (rs rt : Reg) (imm : Imm16) (s : State) :
    exec (.lw rs rt imm) s =
      accessAt (effAddr (s.reg rs) imm) (fun i => finishReg .mem rt (s.dmem.read i) s) s := rfl

theorem exec_sw_eq (rs rt : Reg) (imm : Imm16) (s : State) :
    exec (.sw rs rt imm) s = accessAt (effAddr (s.reg rs) imm) (fun i => finishStore i (s.reg rt) s) s := rfl

/-- jalr faults only through x[31] under FAULT, with its own word (R205). -/
theorem exec_jalr_fault (rs : Reg) (ign : BitVec 15) (s : State) (f : Fault) (h : exec (.jalr rs ign) s = .fault f) :
    rs = linkReg ∧ s.cfg.jalrLinkRead = .fault ∧ f = .unpredictableJalr s.pc (encode (.jalr rs ign)) := by
  rw [exec_jalr_eq] at h
  split at h <;> cases h
  next hfault => exact ⟨hfault.1, hfault.2, rfl⟩

end Sys2Proof.Machine

open Sys2Proof Sys2Proof.Machine

/-- Settles O30: add, sub and addi end as `finishAlu`, lw and sw as `accessAt`, and jalr has its one fault; no other
instruction raises any. -/
theorem instructionsRaiseOnlyTheirFaults : Obligations.InstructionsRaiseOnlyTheirFaults := by
  intro i s f h
  cases i
  case add =>
    rw [exec_add_eq] at h
    exact .inl ⟨finishAlu_fault _ _ _ s f h, .inl rfl⟩
  case sub =>
    rw [exec_sub_eq] at h
    exact .inl ⟨finishAlu_fault _ _ _ s f h, .inr (.inl rfl)⟩
  case addi =>
    rw [exec_addi_eq] at h
    exact .inl ⟨finishAlu_fault _ _ _ s f h, .inr (.inr rfl)⟩
  case lw =>
    rw [exec_lw_eq] at h
    obtain ⟨k, rfl⟩ := accessAt_fault _ _ s f h fun _ => nofun
    exact .inr (.inl ⟨k, rfl, .inl rfl⟩)
  case sw =>
    rw [exec_sw_eq] at h
    obtain ⟨k, rfl⟩ := accessAt_fault _ _ s f h fun _ => nofun
    exact .inr (.inl ⟨k, rfl, .inr rfl⟩)
  case jalr rs ign =>
    obtain ⟨rfl, hpolicy, rfl⟩ := exec_jalr_fault rs ign s f h
    exact .inr (.inr ⟨rfl, hpolicy, ign, rfl⟩)
  all_goals cases h

end

section
/-! The datapath (40_datapath.md R80 to R98): a cycle of the eight blocks on an instruction's word does what exec does. The
instructions come in families by their control signals; each family has one lemma about the cycle. -/

namespace Sys2Proof.Machine

/-! ### The stages of the cycle -/

/-- Step 4 raises no fault: neither an Invalid word nor a jalr through x[31] stops the cycle (R98, R205, R206). -/
structure PassesControl (d : Decoded) (m : Mnemonic) (s : State) : Prop where
  resolved : ¬ (m = .invalid ∧ s.cfg.invalidPolicy = .fault)
  jalrRead : ¬ (m = .jalr ∧ d.rs = linkReg ∧ s.cfg.jalrLinkRead = .fault)

theorem PassesControl.of_ne {m : Mnemonic} (hinvalid : m ≠ .invalid) (hjalr : m ≠ .jalr) (d : Decoded) (s : State) :
    PassesControl d m s :=
  ⟨fun h => hinvalid h.1, fun h => hjalr h.1⟩

/-- What the ALU answers in step 6, its operands selected by the control signals (R87, R91). -/
def aluAnswer (d : Decoded) (m : Mnemonic) (s : State) : Option Word :=
  alu s.cfg (s.reg d.rs) (operandB (controlUnit m) d s) d.simm d.shamt d.zimm d.opcode (controlUnit m).aluOp

section
variable (w : Word) {d : Decoded} {m : Mnemonic} {s : State} (h : PassesControl d m s)
include h

theorem cycleDecoded_of_overflow (halu : aluAnswer d m s = none) :
    cycleDecoded w d m s = raise (.arithmeticOverflow s.pc) := by
  rw [aluAnswer] at halu
  simp only [cycleDecoded, if_neg h.resolved, if_neg h.jalrRead, halu]

/-- A cycle without a memory access: no fault after the ALU (R95 to R97). -/
theorem cycleDecoded_of_noAccess {r : Word} (halu : aluAnswer d m s = some r) (hread : (controlUnit m).memRead = false)
    (hwrite : (controlUnit m).memWrite = false) :
    cycleDecoded w d m s =
      .next (((writeback (controlUnit m) d r 0#32 s.pc s).setPc (nextPc m (controlUnit m) d s)).retire
        (classifier d m)) := by
  rw [aluAnswer] at halu
  simp [cycleDecoded, h.resolved, h.jalrRead, halu, lsuCheck, memoryStage, hread, hwrite]

/-- A cycle with a memory access: CheckData on x[rs] + simm, then the access, the writeback and the rest (R93 to R97). -/
theorem cycleDecoded_of_access {r : Word} (halu : aluAnswer d m s = some r)
    (haccess : ((controlUnit m).memRead || (controlUnit m).memWrite) = true) :
    cycleDecoded w d m s =
      accessAt (s.reg d.rs + d.simm) (fun i =>
        .next (((writeback (controlUnit m) d r (if (controlUnit m).memRead then s.dmem.read i else 0#32) s.pc
          (memoryStage (controlUnit m) d i s)).setPc (nextPc m (controlUnit m) d s)).retire (classifier d m))) s := by
  rw [aluAnswer] at halu
  simp only [cycleDecoded, if_neg h.resolved, if_neg h.jalrRead, halu, lsuCheck, if_pos haccess]
  rfl

/-- Control signals that write no register and access no memory: the cycle only moves the pc. -/
theorem cycleDecoded_of_moves {r : Word} (halu : aluAnswer d m s = some r) (hread : (controlUnit m).memRead = false)
    (hwrite : (controlUnit m).memWrite = false) (hreg : (controlUnit m).regWrite = false) :
    cycleDecoded w d m s = finishPc (classifier d m) (nextPc m (controlUnit m) d s) s := by
  rw [cycleDecoded_of_noAccess w h halu hread hwrite]
  simp [writeback, hreg, finishPc]

/-- Control signals that write the link register and access no memory. -/
theorem cycleDecoded_of_links {r : Word} (halu : aluAnswer d m s = some r) (hread : (controlUnit m).memRead = false)
    (hwrite : (controlUnit m).memWrite = false) (hreg : (controlUnit m).regWrite = true)
    (hdst : (controlUnit m).dst = .link) :
    cycleDecoded w d m s = finishLink (classifier d m) (nextPc m (controlUnit m) d s) s := by
  rw [cycleDecoded_of_noAccess w h halu hread hwrite]
  simp [writeback, hreg, hdst, finishLink]

end

/-- Control signals that only write the ALU's result to rd or rt: the cycle ends as `finishAlu`. -/
theorem cycleDecoded_of_writesAlu (w : Word) (d : Decoded) (m : Mnemonic) (s : State) (dst : Dest) (src : AluSrc) (n : Nat)
    (hc : controlUnit m = { dst := dst, aluSrc := src, aluOp := n, regWrite := true }) (hdst : dst ≠ .link) :
    cycleDecoded w d m s =
      finishAlu (classifier d m) (if dst = .rd then d.rd else d.rt) (aluAnswer d m s) s := by
  have hpass : PassesControl d m s := by
    refine .of_ne ?_ ?_ d s
    · rintro rfl
      cases hc
    · rintro rfl
      cases hc
  cases halu : aluAnswer d m s with
  | none => exact cycleDecoded_of_overflow w hpass halu
  | some r =>
    rw [cycleDecoded_of_noAccess w hpass halu (by rw [hc]) (by rw [hc]), hc]
    cases dst with
    | rd => rfl
    | rt => rfl
    | link => exact absurd rfl hdst

/-! ### The families of instructions -/

/-- The two-register and shift instructions (R120 to R130). -/
theorem cycleDecoded_registerAlu (w : Word) (m : Mnemonic) (f : BitVec 6) (rs rt rd shamt : Reg) (s : State)
    (hc : controlUnit m = { dst := .rd, aluOp := (controlUnit m).aluOp, regWrite := true }) :
    cycleDecoded w (decoderBlock (encodeR f rs rt rd shamt) s.pc) m s =
      finishAlu .rType rd (aluRegister s.cfg (s.reg rs) (s.reg rt) shamt (controlUnit m).aluOp) s := by
  rw [cycleDecoded_of_writesAlu w _ m s _ _ _ hc Dest.noConfusion, aluAnswer, hc]
  simp [alu, operandB, classifier, decoderBlock, opcodeOf_encodeR, rsOf_encodeR, rtOf_encodeR, rdOf_encodeR,
    shamtOf_encodeR]

/-- The immediate ALU instructions (R140 to R146). -/
theorem cycleDecoded_immediateAlu (w : Word) (m : Mnemonic) (op : BitVec 6) (rs rt : Reg) (imm : Imm16) (s : State)
    (hop : op ≠ 0#6) (hc : controlUnit m = { aluSrc := .imm, regWrite := true }) :
    cycleDecoded w (decoderBlock (encodeI op rs rt imm) s.pc) m s =
      finishAlu .iType rt (aluImmediate s.cfg (s.reg rs) (simm imm) (zimm imm) op) s := by
  have hkind : ¬ (m = .j ∨ m = .jal) ∧ ¬ (m = .beq ∨ m = .bne) ∧ ¬ (m = .lw ∨ m = .sw) := by
    refine ⟨?_, ?_, ?_⟩
    all_goals
      rintro (rfl | rfl)
      · cases hc
      · cases hc
  rw [cycleDecoded_of_writesAlu w _ m s _ _ _ hc Dest.noConfusion, aluAnswer]
  simp [alu, classifier, hkind, hop, decoderBlock, opcodeOf_encodeI, rsOf_encodeI, rtOf_encodeI, imm16Of_encodeI]

/-- Any opcode but those of R89's rows and 0 has the ALU answer 0. -/
theorem aluAnswer_of_opcode (d : Decoded) (m : Mnemonic) (s : State)
    (h : d.opcode ∉ [0x00#6, 0x08#6, 0x09#6, 0x0A#6, 0x0B#6, 0x0C#6, 0x0D#6, 0x0F#6]) : aluAnswer d m s = some 0#32 := by
  rw [aluAnswer, alu, if_neg (List.ne_of_not_mem_cons h)]
  unfold aluImmediate
  split
  case h_8 => rfl
  all_goals simp_all

/-- Opcode 0 with a selector outside R88's rows has the ALU answer 0. -/
theorem aluAnswer_of_aluOp (d : Decoded) (m : Mnemonic) (s : State) (hop : d.opcode = 0#6)
    (h : (controlUnit m).aluOp ∉ [1, 2, 3, 4, 5, 6, 7, 8, 9, 10, 11]) : aluAnswer d m s = some 0#32 := by
  rw [aluAnswer, alu, if_pos hop]
  unfold aluRegister
  split
  case h_12 => rfl
  all_goals simp_all

section
variable (w : Word) (d : Decoded) (s : State)

theorem cycleDecoded_jr (hop : d.opcode = 0x00#6) :
    cycleDecoded w d .jr s = finishPc .rType (s.reg d.rs) s := by
  rw [cycleDecoded_of_moves w (.of_ne (by decide) (by decide) d s) (aluAnswer_of_aluOp d .jr s hop (by decide)) rfl rfl rfl]
  simp [nextPc, jumpRegValue, classifier, controlUnit, hop]

theorem cycleDecoded_jalr (hop : d.opcode = 0x00#6) :
    cycleDecoded w d .jalr s =
      if d.rs = linkReg ∧ s.cfg.jalrLinkRead = .fault then raise (.unpredictableJalr s.pc w)
      else finishLink .rType (if d.rs = linkReg ∧ s.cfg.jalrLinkRead = .new then pc4 s.pc else s.reg d.rs) s := by
  by_cases hfault : d.rs = linkReg ∧ s.cfg.jalrLinkRead = .fault
  · simp [cycleDecoded, hfault]
  · have hpass : PassesControl d .jalr s := ⟨fun h => Mnemonic.noConfusion h.1, fun h => hfault h.2⟩
    rw [if_neg hfault, cycleDecoded_of_links w hpass (aluAnswer_of_aluOp d .jalr s hop (by decide)) rfl rfl rfl rfl]
    simp [nextPc, jumpRegValue, classifier, controlUnit, hop]

theorem cycleDecoded_beq (hop : d.opcode = 0x04#6) :
    cycleDecoded w d .beq s =
      finishPc .branch (if s.reg d.rs = s.reg d.rt then pc4 s.pc + d.boff else pc4 s.pc) s := by
  have halu := aluAnswer_of_opcode d .beq s (by rw [hop]; decide)
  rw [cycleDecoded_of_moves w (.of_ne (by decide) (by decide) d s) halu rfl rfl rfl]
  simp [nextPc, classifier, controlUnit, hop]

theorem cycleDecoded_bne (hop : d.opcode = 0x05#6) :
    cycleDecoded w d .bne s =
      finishPc .branch (if s.reg d.rs ≠ s.reg d.rt then pc4 s.pc + d.boff else pc4 s.pc) s := by
  have halu := aluAnswer_of_opcode d .bne s (by rw [hop]; decide)
  rw [cycleDecoded_of_moves w (.of_ne (by decide) (by decide) d s) halu rfl rfl rfl]
  simp [nextPc, classifier, controlUnit, hop]

theorem cycleDecoded_j (hop : d.opcode = 0x02#6) : cycleDecoded w d .j s = finishPc .jType d.jtarget s := by
  have halu := aluAnswer_of_opcode d .j s (by rw [hop]; decide)
  rw [cycleDecoded_of_moves w (.of_ne (by decide) (by decide) d s) halu rfl rfl rfl]
  simp [nextPc, classifier, controlUnit, hop]

theorem cycleDecoded_jal (hop : d.opcode = 0x03#6) : cycleDecoded w d .jal s = finishLink .jType d.jtarget s := by
  have halu := aluAnswer_of_opcode d .jal s (by rw [hop]; decide)
  rw [cycleDecoded_of_links w (.of_ne (by decide) (by decide) d s) halu rfl rfl rfl rfl]
  simp [nextPc, classifier, controlUnit, hop]

theorem cycleDecoded_lw (hop : d.opcode = 0x23#6) :
    cycleDecoded w d .lw s =
      accessAt (s.reg d.rs + d.simm) (fun i => finishReg .mem d.rt (s.dmem.read i) s) s := by
  have halu := aluAnswer_of_opcode d .lw s (by rw [hop]; decide)
  rw [cycleDecoded_of_access w (.of_ne (by decide) (by decide) d s) halu rfl]
  simp [writeback, memoryStage, nextPc, classifier, controlUnit, hop, finishReg]

theorem cycleDecoded_sw (hop : d.opcode = 0x2B#6) :
    cycleDecoded w d .sw s = accessAt (s.reg d.rs + d.simm) (fun i => finishStore i (s.reg d.rt) s) s := by
  have halu := aluAnswer_of_opcode d .sw s (by rw [hop]; decide)
  rw [cycleDecoded_of_access w (.of_ne (by decide) (by decide) d s) halu rfl]
  simp [writeback, memoryStage, nextPc, classifier, controlUnit, hop, finishStore]

end

/-- The ALU answers 0 for every word that resolves to Invalid (R88, R89). -/
theorem aluAnswer_of_outsideTables (w pc : Word) (s : State) (h : OutsideTables w) :
    aluAnswer (decoderBlock w pc) .invalid s = some 0#32 := by
  obtain ⟨hop, -⟩ | hop := h
  · exact aluAnswer_of_aluOp _ _ _ hop (by decide)
  · have hrows : [0x00#6, 0x08#6, 0x09#6, 0x0A#6, 0x0B#6, 0x0C#6, 0x0D#6, 0x0F#6] ⊆ 0#6 :: opcodeTable.map Prod.fst := by
      decide
    exact aluAnswer_of_opcode _ _ _ fun h => hop (hrows h)

/-- An Invalid word: step 4's fault, or no write and the pc advanced (R190). -/
theorem cycleDecoded_invalid (w : Word) (s : State) (h : OutsideTables w) :
    cycleDecoded w (decoderBlock w s.pc) .invalid s = execInvalid w s := by
  cases hpolicy : s.cfg.invalidPolicy with
  | fault => simp [cycleDecoded, execInvalid, hpolicy]
  | nop =>
    have hpass : PassesControl (decoderBlock w s.pc) .invalid s :=
      ⟨fun h => InvalidPolicy.noConfusion (hpolicy.symm.trans h.2), fun h => Mnemonic.noConfusion h.1⟩
    rw [cycleDecoded_of_moves w hpass (aluAnswer_of_outsideTables w s.pc s h) rfl rfl rfl]
    simp [execInvalid, hpolicy, invalidKind, classifier, nextPc, controlUnit, decoderBlock]

/-! ### Every fetched word -/

/-- The cycle on an instruction's own word and mnemonic is its meaning. -/
theorem cycleDecoded_encode (i : Instr) (s : State) :
    cycleDecoded (encode i) (decoderBlock (encode i) s.pc) i.mnemonic s = exec i s := by
  cases i
  case add =>
    rw [exec_add_eq]
    exact cycleDecoded_registerAlu _ _ _ _ _ _ _ s rfl
  case sub =>
    rw [exec_sub_eq]
    exact cycleDecoded_registerAlu _ _ _ _ _ _ _ s rfl
  case addu | subu | and | or | nor | slt | sltu | sll | srl => exact cycleDecoded_registerAlu _ _ _ _ _ _ _ s rfl
  case addi =>
    rw [exec_addi_eq]
    exact cycleDecoded_immediateAlu _ _ _ _ _ _ _ (by decide) rfl
  case sltiu =>
    rw [exec_sltiu_eq]
    exact cycleDecoded_immediateAlu _ _ _ _ _ _ _ (by decide) rfl
  case addiu | andi | ori | lui | slti => exact cycleDecoded_immediateAlu _ _ _ _ _ _ _ (by decide) rfl
  case jr =>
    refine (cycleDecoded_jr _ _ s (opcodeOf_encodeJumpReg _ _ _)).trans ?_
    simp [decoderBlock, encode, rsOf_encodeJumpReg, exec, execJr]
  case jalr =>
    refine (cycleDecoded_jalr _ _ s (opcodeOf_encodeJumpReg _ _ _)).trans ?_
    simp [decoderBlock, encode, rsOf_encodeJumpReg, exec_jalr_eq]
  case beq =>
    refine (cycleDecoded_beq _ _ s (opcodeOf_encodeI _ _ _ _)).trans ?_
    simp [decoderBlock, encode, rsOf_encodeI, rtOf_encodeI, imm16Of_encodeI, exec, execBeq]
  case bne =>
    refine (cycleDecoded_bne _ _ s (opcodeOf_encodeI _ _ _ _)).trans ?_
    simp [decoderBlock, encode, rsOf_encodeI, rtOf_encodeI, imm16Of_encodeI, exec, execBne]
  case lw =>
    refine (cycleDecoded_lw _ _ s (opcodeOf_encodeI _ _ _ _)).trans ?_
    simp [decoderBlock, encode, rsOf_encodeI, rtOf_encodeI, imm16Of_encodeI, exec_lw_eq, effAddr]
  case sw =>
    refine (cycleDecoded_sw _ _ s (opcodeOf_encodeI _ _ _ _)).trans ?_
    simp [decoderBlock, encode, rsOf_encodeI, rtOf_encodeI, imm16Of_encodeI, exec_sw_eq, effAddr]
  case j =>
    refine (cycleDecoded_j _ _ s (opcodeOf_encodeJ _ _)).trans ?_
    simp [decoderBlock, encode, imm26Of_encodeJ, exec, execJ]
  case jal =>
    refine (cycleDecoded_jal _ _ s (opcodeOf_encodeJ _ _)).trans ?_
    simp [decoderBlock, encode, imm26Of_encodeJ, exec, execJal]

theorem cycleDecoded_eq_execWord (w : Word) (s : State) :
    cycleDecoded w (decoderBlock w s.pc) (resolve (opcodeOf w) (funcOf w)) s = execWord w s := by
  cases hd : decode w with
  | ok i =>
    rw [resolve_of_decode w i hd, execWord_of_decode w s i hd, ← cycleDecoded_encode i s, encode_of_decode w i hd]
  | error r =>
    have hout := outsideTables_of_decode_error w r hd
    rw [resolve_of_outsideTables w hout, execWord_of_reject w s r hd, cycleDecoded_invalid w s hout]

theorem cycle_eq_step (s : State) : cycle s = step s := by
  cases hr : s.raised with
  | some f => simp [cycle, State.status_of_raised s f hr, step_of_raised s f hr, raise]
  | none =>
    by_cases hp : s.pc = sentinel
    · simp [cycle, State.status_of_sentinel s hr hp, step_of_sentinel s hr hp]
    · rw [step_of_running s hr hp, cycle, State.status_of_running s hr hp]
      cases fetch s with
      | error f => rfl
      | ok w => exact cycleDecoded_eq_execWord w s

end Sys2Proof.Machine

open Sys2Proof Sys2Proof.Machine

/-- Settles O38: the cycle on the fetched word is the meaning of the instruction it encodes, or of an Invalid word. -/
theorem stepIsTheDatapathCycle : Obligations.StepIsTheDatapathCycle := fun s => (cycle_eq_step s).symm

end

section
/-! The run as a whole (70_reset_and_hazards.md R233 to R235): it halts, faults or never ends. -/

namespace Sys2Proof.Machine

/-- A run is refused its next step only by halting. -/
theorem runSteps_refused (n : Nat) (s : State) (r : Refusal) (h : runSteps n s = .refused r) : r = .halted := by
  induction n generalizing s with
  | zero => cases h
  | succ n ih =>
    cases hs : step s with
    | next t =>
      rw [runSteps_of_next n s t hs] at h
      exact ih t h
    | fault f =>
      rw [runSteps_of_fault n s f hs] at h
      cases h
    | refused q =>
      rw [runSteps_of_refused n s q hs] at h
      cases h
      exact ((step_refused_iff s r).1 hs).1

/-- Two numbers of steps that both reach the stop give the same outcome. -/
theorem runSteps_eq_of_stopped (n m : Nat) (s : State) (hn : ∀ t, runSteps n s ≠ .next t)
    (hm : ∀ t, runSteps m s ≠ .next t) : runSteps n s = runSteps m s := by
  obtain h | h := Nat.le_total n m
  · obtain ⟨k, rfl⟩ := Nat.exists_eq_add_of_le h
    exact (runSteps_stopped n k s hn).symm
  · obtain ⟨k, rfl⟩ := Nat.exists_eq_add_of_le h
    exact runSteps_stopped m k s hm

theorem HaltsFrom.not_faultsFrom {s : State} (hhalt : HaltsFrom s) (f : Fault) : ¬ FaultsFrom s f := by
  rintro ⟨m, hm⟩
  obtain ⟨n, hn⟩ := hhalt
  have h := runSteps_eq_of_stopped n m s (by simp [hn]) (by simp [hm])
  rw [hn, hm] at h
  cases h

/-- A run has only one fault. -/
theorem FaultsFrom.unique {s : State} {f g : Fault} (hf : FaultsFrom s f) (hg : FaultsFrom s g) : f = g := by
  obtain ⟨n, hn⟩ := hf
  obtain ⟨m, hm⟩ := hg
  have h := runSteps_eq_of_stopped n m s (by simp [hn]) (by simp [hm])
  rw [hn, hm] at h
  injection h

theorem RunsForever.not_haltsFrom {s : State} (h : RunsForever s) : ¬ HaltsFrom s := by
  rintro ⟨n, hn⟩
  obtain ⟨t, ht⟩ := h n
  rw [hn] at ht
  cases ht

theorem RunsForever.not_faultsFrom {s : State} (h : RunsForever s) (f : Fault) : ¬ FaultsFrom s f := by
  rintro ⟨n, hn⟩
  obtain ⟨t, ht⟩ := h n
  rw [hn] at ht
  cases ht

/-- A run that does not go on for ever has a first stop, which is a fault or the halt. -/
theorem halts_or_faults_or_runsForever (s : State) : HaltsFrom s ∨ (∃ f, FaultsFrom s f) ∨ RunsForever s := by
  by_cases hrun : RunsForever s
  · exact .inr (.inr hrun)
  · obtain ⟨n, hn⟩ := not_forall.1 hrun
    cases hout : runSteps n s with
    | next t => exact absurd ⟨t, hout⟩ hn
    | fault f => exact .inr (.inl ⟨f, n, hout⟩)
    | refused r =>
      obtain rfl := runSteps_refused n s r hout
      exact .inl ⟨n, hout⟩

end Sys2Proof.Machine

open Sys2Proof Sys2Proof.Machine

/-- Settles O43: a stopped run stays stopped, so two stops of one run are the same stop, and no refusal but the halt exists. -/
theorem everyRunHasExactlyOneOutcome : Obligations.EveryRunHasExactlyOneOutcome := fun s =>
  ⟨halts_or_faults_or_runsForever s, fun ⟨hhalt, f, hf⟩ => hhalt.not_faultsFrom f hf,
    fun ⟨hhalt, hrun⟩ => hrun.not_haltsFrom hhalt, fun ⟨⟨f, hf⟩, hrun⟩ => hrun.not_faultsFrom f hf,
    fun _ _ => FaultsFrom.unique⟩

end

section
/-! The register-register ALU instructions (41_register_alu.md R120 to R130): but for an overflow of add or sub, each completes
as the one write of its result to x[rd], and the result has the reading that its rule gives. -/

namespace Sys2Proof.Machine

/-! ### The results (R87, R88) -/

/-- b2w reads as the number 1 or 0 (R17). -/
theorem b2w_toNat (c : Prop) [Decidable c] : (b2w (decide c)).toNat = if c then 1 else 0 := by
  by_cases h : c
  · simp [b2w, h]
  · simp [b2w, h]

theorem setLtSigned_toNat (a b : Word) : (setLtSigned a b).toNat = if a.toInt < b.toInt then 1 else 0 :=
  b2w_toNat (a.toInt < b.toInt)

theorem setLtUnsigned_toNat (a b : Word) : (setLtUnsigned a b).toNat = if a.toNat < b.toNat then 1 else 0 :=
  b2w_toNat (a.toNat < b.toNat)

/-- The difference of words is the difference of their unsigned readings modulo 2^32 (R17). -/
theorem sub_toNat_emod (a b : Word) : ((a - b).toNat : Int) = (a.toNat - b.toNat : Int) % 2 ^ 32 := by
  have hb := b.isLt
  rw [BitVec.toNat_sub]
  omega

theorem nor_getLsbD (a b : Word) (k : Nat) (hk : k < 32) :
    (~~~(a ||| b)).getLsbD k = !(a.getLsbD k || b.getLsbD k) := by
  rw [BitVec.getLsbD_not, BitVec.getLsbD_or, decide_eq_true hk, Bool.true_and]

/-- A left shift multiplies by a power of two modulo 2^32 (R129). -/
theorem shiftLeft_toNat (v : Word) (shamt : Reg) :
    (shiftLeft v shamt).toNat = (v.toNat * 2 ^ shamt.toNat) % 2 ^ 32 := by
  rw [shiftLeft, BitVec.toNat_shiftLeft, Nat.shiftLeft_eq]

/-- A logical right shift divides the unsigned reading by a power of two (R12, R130). -/
theorem shiftRight_logical_toNat (v : Word) (shamt : Reg) :
    (shiftRight .logical v shamt).toNat = v.toNat / 2 ^ shamt.toNat := by
  rw [shiftRight, BitVec.toNat_ushiftRight, Nat.shiftRight_eq_div_pow]

/-- An arithmetic right shift divides the signed reading by a power of two, rounding down (R12, R130). -/
theorem shiftRight_arithmetic_toInt (v : Word) (shamt : Reg) :
    (shiftRight .arithmetic v shamt).toInt = v.toInt / 2 ^ shamt.toNat := by
  rw [shiftRight, BitVec.toInt_sshiftRight, Int.shiftRight_eq_div_pow, Nat.cast_pow, Nat.cast_ofNat]

/-! ### The completion -/

/-- An R-type cycle that writes a register: the value, the pc, the frame and the counters. -/
theorem finishReg_rType_completes (P : Word → Prop) (d : Reg) (v : Word) (s : State) (h : P v) :
    Completes (finishReg .rType d v s) fun t =>
      P (t.reg d) ∧ t.pc = s.pc + 4#32 ∧ WritesOnly d s t ∧ Counted s t 1 0 0 0 0 := by
  obtain ⟨t, ht, hv, hpc, hframe, hstats⟩ := finishReg_completes P d v .rType s h
  exact ⟨t, ht, hv, hpc, hframe, counted_rType s t hstats⟩

/-! ### The two instructions that can fault -/

section
variable (rs rt rd ign : Reg) (s : State)

theorem exec_add_of_not_addOvf (h : ¬ ((s.reg rs).msb = (s.reg rt).msb ∧ (s.reg rs + s.reg rt).msb ≠ (s.reg rs).msb)) :
    exec (.add rs rt rd ign) s = finishReg .rType rd (s.reg rs + s.reg rt) s :=
  if_neg (mt (addOvf_iff _ _ _).1 h)

theorem exec_add_of_addOvf (h : (s.reg rs).msb = (s.reg rt).msb ∧ (s.reg rs + s.reg rt).msb ≠ (s.reg rs).msb) :
    exec (.add rs rt rd ign) s = .fault (.arithmeticOverflow s.pc) :=
  if_pos ((addOvf_iff _ _ _).2 h)

theorem exec_sub_of_not_subOvf (h : ¬ ((s.reg rs).msb ≠ (s.reg rt).msb ∧ (s.reg rs - s.reg rt).msb ≠ (s.reg rs).msb)) :
    exec (.sub rs rt rd ign) s = finishReg .rType rd (s.reg rs - s.reg rt) s :=
  if_neg (mt (subOvf_iff _ _ _).1 h)

theorem exec_sub_of_subOvf (h : (s.reg rs).msb ≠ (s.reg rt).msb ∧ (s.reg rs - s.reg rt).msb ≠ (s.reg rs).msb) :
    exec (.sub rs rt rd ign) s = .fault (.arithmeticOverflow s.pc) :=
  if_pos ((subOvf_iff _ _ _).2 h)

end

end Sys2Proof.Machine

open Sys2Proof Sys2Proof.Machine

/-- Settles O6: AddOvf holds exactly when the signed sum is not representable, and else the wrapped sum is the exact one. -/
theorem addWritesTheSumOrFaults : Obligations.AddWritesTheSumOrFaults := by
  intro rs rt rd ign s
  refine ⟨decode_encode (.add rs rt rd ign), rfl, fun hfits => ?_, fun hovf => ?_⟩
  · rw [exec_add_of_not_addOvf rs rt rd ign s hfits]
    exact finishReg_rType_completes (fun v => v.toInt = (s.reg rs).toInt + (s.reg rt).toInt) rd _ s
      (toInt_add_of_not_ovf _ _ hfits)
  · exact ⟨exec_add_of_addOvf rs rt rd ign s hovf, not_representable_of_addOvf _ _ hovf⟩

/-- Settles O8: SubOvf holds exactly when the signed difference is not representable, and else the wrapped difference is the
exact one. -/
theorem subWritesTheDifferenceOrFaults : Obligations.SubWritesTheDifferenceOrFaults := by
  intro rs rt rd ign s
  refine ⟨decode_encode (.sub rs rt rd ign), rfl, fun hfits => ?_, fun hovf => ?_⟩
  · rw [exec_sub_of_not_subOvf rs rt rd ign s hfits]
    exact finishReg_rType_completes (fun v => v.toInt = (s.reg rs).toInt - (s.reg rt).toInt) rd _ s
      (toInt_sub_of_not_ovf _ _ hfits)
  · exact ⟨exec_sub_of_subOvf rs rt rd ign s hovf, not_representable_of_subOvf _ _ hovf⟩

/-- Settles O10: both write b2w of their comparison. -/
theorem setOnLessThanRegister : Obligations.SetOnLessThanRegister := by
  intro rs rt rd ign s
  refine ⟨decode_encode (.slt rs rt rd ign), decode_encode (.sltu rs rt rd ign), rfl, rfl, ?_, ?_⟩
  · exact finishReg_rType_completes (fun v => v.toNat = if (s.reg rs).toInt < (s.reg rt).toInt then 1 else 0) rd _ s
      (setLtSigned_toNat _ _)
  · exact finishReg_rType_completes (fun v => v.toNat = if (s.reg rs).toNat < (s.reg rt).toNat then 1 else 0) rd _ s
      (setLtUnsigned_toNat _ _)

/-- Settles O11: the shift as a product or a quotient by 2^shamt, srl's of the reading that SRL_KIND selects. -/
theorem shiftsByAnImmediateAmount : Obligations.ShiftsByAnImmediateAmount := by
  intro ign rt rd shamt s
  refine ⟨decode_encode (.sll ign rt rd shamt), decode_encode (.srl ign rt rd shamt), rfl, rfl, ?_, ?_⟩
  · exact finishReg_rType_completes (fun v => v.toNat = ((s.reg rt).toNat * 2 ^ shamt.toNat) % 2 ^ 32) rd _ s
      (shiftLeft_toNat _ _)
  · obtain ⟨t, ht, hreg, hrest⟩ :=
      finishReg_rType_completes (· = shiftRight s.cfg.srlKind (s.reg rt) shamt) rd _ s rfl
    refine ⟨t, ht, fun hkind => ?_, fun hkind => ?_, hrest⟩
    · rw [hreg, hkind, shiftRight_logical_toNat]
    · rw [hreg, hkind, shiftRight_arithmetic_toInt]

/-- Settles O7: neither instruction tests for overflow, and words add and subtract modulo 2^32. -/
theorem adduAndSubuWrap : Obligations.AdduAndSubuWrap := by
  intro rs rt rd ign s
  refine ⟨decode_encode (.addu rs rt rd ign), decode_encode (.subu rs rt rd ign), rfl, rfl, ?_, ?_⟩
  · exact finishReg_rType_completes (fun v => v.toNat = ((s.reg rs).toNat + (s.reg rt).toNat) % 2 ^ 32) rd _ s
      (BitVec.toNat_add _ _)
  · exact finishReg_rType_completes (fun v => (v.toNat : Int) = ((s.reg rs).toNat - (s.reg rt).toNat : Int) % 2 ^ 32) rd _ s
      (sub_toNat_emod _ _)

/-- Settles O9: each result's bits are read off the operation on words. -/
theorem bitwiseRegisterInstructions : Obligations.BitwiseRegisterInstructions := by
  intro rs rt rd ign s
  refine ⟨decode_encode (.and rs rt rd ign), decode_encode (.or rs rt rd ign), decode_encode (.nor rs rt rd ign), rfl, rfl,
    rfl, ?_, ?_, ?_⟩
  · exact finishReg_rType_completes
      (fun v => ∀ k < 32, v.getLsbD k = ((s.reg rs).getLsbD k && (s.reg rt).getLsbD k)) rd _ s
      fun _ _ => BitVec.getLsbD_and
  · exact finishReg_rType_completes
      (fun v => ∀ k < 32, v.getLsbD k = ((s.reg rs).getLsbD k || (s.reg rt).getLsbD k)) rd _ s
      fun _ _ => BitVec.getLsbD_or
  · exact finishReg_rType_completes
      (fun v => ∀ k < 32, v.getLsbD k = !((s.reg rs).getLsbD k || (s.reg rt).getLsbD k)) rd _ s
      (nor_getLsbD _ _)

end

section
/-! The immediate ALU instructions (42_immediate_alu.md R140 to R146): but for an overflow of addi, each completes as the one
write of its result to x[rt], and the result has the reading that its rule gives of x[rs] and the extended immediate. -/

namespace Sys2Proof.Machine

/-! ### The results (R63, R89) -/

/-- Above bit 15 the zero-extended immediate's bits are 0 (R63). -/
theorem zimm_getLsbD (imm : Imm16) (k : Nat) (hk : k < 32) : (zimm imm).getLsbD k = (decide (k < 16) && imm.getLsbD k) := by
  rw [zimm, BitVec.getLsbD_setWidth, decide_eq_true hk, Bool.true_and]
  by_cases h : k < 16
  · rw [decide_eq_true h, Bool.true_and]
  · rw [decide_eq_false h, Bool.false_and, BitVec.getLsbD_of_ge imm k (by omega)]

theorem and_zimm_getLsbD (a : Word) (imm : Imm16) (k : Nat) (hk : k < 32) :
    (a &&& zimm imm).getLsbD k = (decide (k < 16) && a.getLsbD k && imm.getLsbD k) := by
  rw [BitVec.getLsbD_and, zimm_getLsbD imm k hk, Bool.and_left_comm, Bool.and_assoc]

theorem or_zimm_getLsbD (a : Word) (imm : Imm16) (k : Nat) (hk : k < 32) :
    (a ||| zimm imm).getLsbD k = (a.getLsbD k || (decide (k < 16) && imm.getLsbD k)) := by
  rw [BitVec.getLsbD_or, zimm_getLsbD imm k hk]

/-- Shifted to the high half, no bit of the immediate is lost (R144). -/
theorem zimm_shiftLeft_toNat (imm : Imm16) : (zimm imm <<< 16).toNat = imm.toNat * 2 ^ 16 := by
  have himm := imm.isLt
  rw [BitVec.toNat_shiftLeft, zimm_toNat, Nat.shiftLeft_eq, Nat.mod_eq_of_lt (by omega)]

/-- The comparison of slti: the immediate's sign is kept by its extension (R145). -/
theorem setLtSigned_simm_toNat (a : Word) (imm : Imm16) :
    (setLtSigned a (simm imm)).toNat = if a.toInt < imm.toInt then 1 else 0 := by
  rw [setLtSigned_toNat, simm_toInt]

/-- The comparison of sltiu under SEXT: a negative immediate reads as a number near 2^32 (R146, D14). -/
theorem setLtUnsigned_simm_toNat (a : Word) (imm : Imm16) :
    (setLtUnsigned a (simm imm)).toNat = if (a.toNat : Int) < imm.toInt % 2 ^ 32 then 1 else 0 := by
  rw [setLtUnsigned_toNat, ← simm_toNat]
  simp only [Nat.cast_lt]

/-- The comparison of sltiu under ZEXT (R146, D14). -/
theorem setLtUnsigned_zimm_toNat (a : Word) (imm : Imm16) :
    (setLtUnsigned a (zimm imm)).toNat = if a.toNat < imm.toNat then 1 else 0 := by
  rw [setLtUnsigned_toNat, zimm_toNat]

/-! ### The completion -/

/-- An I-type cycle that writes a register and accesses no memory: the value, the pc, the frame and the counters. -/
theorem finishReg_iType_completes (P : Word → Prop) (d : Reg) (v : Word) (s : State) (h : P v) :
    Completes (finishReg .iType d v s) fun t =>
      P (t.reg d) ∧ t.pc = s.pc + 4#32 ∧ WritesOnly d s t ∧ Counted s t 0 1 0 0 0 := by
  obtain ⟨t, ht, hv, hpc, hframe, hstats⟩ := finishReg_completes P d v .iType s h
  exact ⟨t, ht, hv, hpc, hframe, counted_iType s t hstats⟩

/-! ### The instruction that can fault -/

section
variable (rs rt : Reg) (imm : Imm16) (s : State)

theorem exec_addi_of_not_addOvf
    (h : ¬ ((s.reg rs).msb = (simm imm).msb ∧ (s.reg rs + simm imm).msb ≠ (s.reg rs).msb)) :
    exec (.addi rs rt imm) s = finishReg .iType rt (s.reg rs + simm imm) s :=
  if_neg (mt (addOvf_iff _ _ _).1 h)

theorem exec_addi_of_addOvf (h : (s.reg rs).msb = (simm imm).msb ∧ (s.reg rs + simm imm).msb ≠ (s.reg rs).msb) :
    exec (.addi rs rt imm) s = .fault (.arithmeticOverflow s.pc) :=
  if_pos ((addOvf_iff _ _ _).2 h)

end

end Sys2Proof.Machine

open Sys2Proof Sys2Proof.Machine

/-- Settles O12: the immediate and its sign extension have the same sign and the same signed reading, so the overflow test of
add decides here too whether the exact sum is representable. -/
theorem addiWritesTheSumOrFaults : Obligations.AddiWritesTheSumOrFaults := by
  intro rs rt imm s
  rw [← simm_msb imm, ← simm_toInt imm]
  refine ⟨decode_encode (.addi rs rt imm), rfl, fun hfits => ?_, fun hovf => ?_⟩
  · rw [exec_addi_of_not_addOvf rs rt imm s hfits]
    exact finishReg_iType_completes (fun v => v.toInt = (s.reg rs).toInt + (simm imm).toInt) rt _ s
      (toInt_add_of_not_ovf _ _ hfits)
  · exact ⟨exec_addi_of_addOvf rs rt imm s hovf, not_representable_of_addOvf _ _ hovf⟩

/-- Settles O16: both write b2w of their comparison, sltiu's with the extension that SLTIU_IMM_EXT selects. -/
theorem setOnLessThanImmediate : Obligations.SetOnLessThanImmediate := by
  intro rs rt imm s
  refine ⟨decode_encode (.slti rs rt imm), decode_encode (.sltiu rs rt imm), rfl, rfl, ?_, ?_⟩
  · exact finishReg_iType_completes (fun v => v.toNat = if (s.reg rs).toInt < imm.toInt then 1 else 0) rt _ s
      (setLtSigned_simm_toNat _ _)
  · obtain ⟨t, ht, hreg, hrest⟩ :=
      finishReg_iType_completes (· = setLtUnsigned (s.reg rs) (sltiuOperand s.cfg.sltiuImmExt imm)) rt _ s rfl
    refine ⟨t, ht, fun hext => ?_, fun hext => ?_, hrest⟩
    · rw [hreg, hext, sltiuOperand, setLtUnsigned_simm_toNat]
    · rw [hreg, hext, sltiuOperand, setLtUnsigned_zimm_toNat]

/-- Settles O13: addiu has no overflow test, and its sum wraps as that of an effective address does (R42). -/
theorem addiuWraps : Obligations.AddiuWraps := by
  intro rs rt imm s
  refine ⟨decode_encode (.addiu rs rt imm), rfl, ?_⟩
  exact finishReg_iType_completes (fun v => (v.toNat : Int) = ((s.reg rs).toNat + imm.toInt) % 2 ^ 32) rt _ s
    (effAddr_toNat _ _)

/-- Settles O14: each result's bits are read off the operation on words, the immediate's by its zero extension. -/
theorem bitwiseImmediateInstructions : Obligations.BitwiseImmediateInstructions := by
  intro rs rt imm s
  refine ⟨decode_encode (.andi rs rt imm), decode_encode (.ori rs rt imm), rfl, rfl, ?_, ?_⟩
  · exact finishReg_iType_completes
      (fun v => ∀ k < 32, v.getLsbD k = (decide (k < 16) && (s.reg rs).getLsbD k && imm.getLsbD k)) rt _ s
      (and_zimm_getLsbD _ _)
  · exact finishReg_iType_completes
      (fun v => ∀ k < 32, v.getLsbD k = ((s.reg rs).getLsbD k || (decide (k < 16) && imm.getLsbD k))) rt _ s
      (or_zimm_getLsbD _ _)

/-- Settles O15: the result does not depend on the ignored field, and the shift by 16 leaves the immediate whole. -/
theorem luiLoadsTheUpperHalf : Obligations.LuiLoadsTheUpperHalf := by
  intro ign rt imm s
  refine ⟨decode_encode (.lui ign rt imm), rfl, ?_⟩
  exact finishReg_iType_completes (fun v => v.toNat = imm.toNat * 2 ^ 16) rt _ s (zimm_shiftLeft_toNat _)

end

section
/-! The load and the store (43_load_store.md R160, R161): both are one access at the effective address, whose check has three
answers (R45, R202); in bounds lw completes as a register write and sw as a store, each counted as a memory access. -/

namespace Sys2Proof.Machine

/-! ### The access -/

/-- With bit 31 set the signed reading, whose quarter the fault records, is the address less 2^32 (R45). -/
theorem toInt_of_bit31 (ea : Word) (h : 2 ^ 31 ≤ ea.toNat) : ea.toInt = ea.toNat - 2 ^ 32 := by
  have hea := BitVec.toInt_eq_toNat_cond ea
  split at hea <;> omega

/-- An address with bit 31 clear and its quarter past DMEM fails CheckData with that quarter (R45, R202). -/
theorem checkData_of_past (s : State) (ea : Word) (hpos : ea.toNat < 2 ^ 31) (hpast : s.cfg.memWords ≤ ea.toNat / 4) :
    checkData s ea = .error (.memoryBounds (ea.toNat / 4 : Nat) s.pc) := by
  obtain ⟨hneg, -⟩ | ⟨-, -, h⟩ | ⟨-, hin, -⟩ := checkData_cases s ea
  · omega
  · exact h
  · omega

/-- An address with bit 31 set fails CheckData with the quarter of its signed reading (R45, R202). -/
theorem checkData_of_bit31 (s : State) (ea : Word) (hneg : 2 ^ 31 ≤ ea.toNat) :
    checkData s ea = .error (.memoryBounds ((ea.toNat - 2 ^ 32 : Int).tdiv 4) s.pc) := by
  obtain ⟨-, h⟩ | ⟨hpos, -⟩ | ⟨hpos, -⟩ := checkData_cases s ea
  · rw [h, toInt_of_bit31 ea hneg]
  · omega
  · omega

section
variable (s : State) (ea : Word) (rest : Nat → Result)

/-- A legal access goes on at the address's quarter (R93). -/
theorem accessAt_of_legal (hpos : ea.toNat < 2 ^ 31) (hin : ea.toNat / 4 < s.cfg.memWords) :
    accessAt ea rest s = rest (ea.toNat / 4) := by
  rw [accessAt, checkData_of_legal s ea hpos hin]

theorem accessAt_of_past (hpos : ea.toNat < 2 ^ 31) (hpast : s.cfg.memWords ≤ ea.toNat / 4) :
    accessAt ea rest s = .fault (.memoryBounds (ea.toNat / 4 : Nat) s.pc) := by
  simp only [accessAt, checkData_of_past s ea hpos hpast, raise]

theorem accessAt_of_bit31 (hneg : 2 ^ 31 ≤ ea.toNat) :
    accessAt ea rest s = .fault (.memoryBounds ((ea.toNat - 2 ^ 32 : Int).tdiv 4) s.pc) := by
  simp only [accessAt, checkData_of_bit31 s ea hneg, raise]

end

/-! ### The completions -/

/-- A cycle that loads into a register: the value, the pc, the frame and the counters. -/
theorem finishReg_mem_completes (d : Reg) (v : Word) (s : State) :
    Completes (finishReg .mem d v s) fun t =>
      t.reg d = v ∧ t.pc = s.pc + 4#32 ∧ WritesOnly d s t ∧ Counted s t 0 1 0 0 1 := by
  obtain ⟨t, ht, hv, hpc, hframe, hstats⟩ := finishReg_completes (· = v) d v .mem s rfl
  exact ⟨t, ht, hv, hpc, hframe, counted_mem s t hstats⟩

/-- A cycle that stores: the word, the pc, the frame and the counters. -/
theorem finishStore_completes (i : Nat) (v : Word) (s : State) :
    Completes (finishStore i v s) fun t =>
      t.dmem.read i = v ∧ t.pc = s.pc + 4#32 ∧ StoresOnly i s t ∧ Counted s t 0 1 0 0 1 :=
  ⟨_, finishStore_eq i v s, Effect.store_value _ _ _ _ _, Effect.apply_pc _ _ _ _, Effect.store_storesOnly _ _ _ _ _,
    counted_mem _ _ (Effect.apply_stats _ _ _ _)⟩

end Sys2Proof.Machine

open Sys2Proof Sys2Proof.Machine

/-- Settles O17: lw is an access that, where legal, completes as the write of the loaded word to x[rt]. -/
theorem lwLoadsTheWordOrFaults : Obligations.LwLoadsTheWordOrFaults := by
  intro rs rt imm s
  rw [exec_lw_eq]
  refine ⟨decode_encode (.lw rs rt imm), rfl, effAddr_toNat _ _, fun hpos hin => ?_, accessAt_of_past s _ _,
    accessAt_of_bit31 s _ _⟩
  rw [accessAt_of_legal s _ _ hpos hin]
  exact finishReg_mem_completes rt _ s

/-- Settles O18: sw is an access that, where legal, completes as the store of x[rt]. -/
theorem swStoresTheWordOrFaults : Obligations.SwStoresTheWordOrFaults := by
  intro rs rt imm s
  rw [exec_sw_eq]
  refine ⟨decode_encode (.sw rs rt imm), rfl, effAddr_toNat _ _, fun hpos hin => ?_, accessAt_of_past s _ _,
    accessAt_of_bit31 s _ _⟩
  rw [accessAt_of_legal s _ _ hpos hin]
  exact finishStore_completes _ _ s

end

section
/-! The control transfers (44_control_transfer.md R170 to R175): each completes as a move of the pc alone or as a move that
links pc + 4 in x[31], and only the next cycle's fetch checks where the pc went (R236). -/

namespace Sys2Proof.Machine

/-! ### The targets (R63, R96) -/

theorem pc4_toNat (pc : Word) : ((pc4 pc).toNat : Int) = (pc.toNat + 4) % 2 ^ 32 := by
  rw [pc4, BitVec.toNat_add]
  rfl

/-- The target of a taken branch, modulo 2^32 (R170). -/
theorem branchTarget_toNat (pc : Word) (imm : Imm16) :
    ((pc4 pc + boff imm).toNat : Int) = (pc.toNat + 4 + 4 * imm.toInt) % 2 ^ 32 := by
  have hpc4 := pc4_toNat pc
  have hboff := boff_toNat imm
  rw [BitVec.toNat_add]
  omega

/-! ### The fetch at the target -/

/-- At SENTINEL a machine without a fault halts; at any other pc its next fetch checks it (R81, R203, R204, R233). -/
theorem targetChecked_pc (t : State) (hr : t.raised = none) : TargetChecked t.pc t where
  halts hp := ⟨State.status_of_sentinel t hr hp, step_of_sentinel t hr hp⟩
  misaligned hp ha := step_of_fetch_error t _ hr hp (fetch_of_misaligned t ha)
  outside ha hl := by
    have hp : t.pc ≠ sentinel := fun hp => absurd (hp ▸ ha) (by decide)
    exact step_of_fetch_error t _ hr hp (fetch_past_program t ha hl)

/-! ### The completions -/

/-- A cycle that only moves the pc: the pc, the frame and the counters. -/
theorem finishPc_completes (k : Kind) (target : Word) (s : State) :
    Completes (finishPc k target s) fun t =>
      t.pc = target ∧ MovesOnly s t ∧ t.stats = (s.stats.classify k).tick :=
  ⟨_, finishPc_eq k target s, Effect.apply_pc _ _ _ _, Effect.none_movesOnly _ _ _, Effect.apply_stats _ _ _ _⟩

/-- A cycle that links and moves the pc: the pc, x[31], the frame and the counters (R95). -/
theorem finishLink_completes (k : Kind) (target : Word) (s : State) :
    Completes (finishLink k target s) fun t =>
      t.pc = target ∧ t.reg 31 = s.pc + 4#32 ∧ WritesOnly 31 s t ∧ t.stats = (s.stats.classify k).tick :=
  ⟨_, finishLink_eq k target s, Effect.apply_pc _ _ _ _, Effect.reg_value _ _ _ _ _, Effect.reg_writesOnly _ _ _ _ _,
    Effect.apply_stats _ _ _ _⟩

/-- A branch on the condition `c`, taken or not: the pc, the frame and the counters (R97, R170). -/
theorem branch_completes (c : Prop) [Decidable c] (imm : Imm16) (s : State) :
    Completes (finishPc .branch (if c then pc4 s.pc + boff imm else pc4 s.pc) s) fun t =>
      (t.pc.toNat : Int) = (s.pc.toNat + 4 + (if c then 4 * imm.toInt else 0)) % 2 ^ 32 ∧ MovesOnly s t ∧
      Counted s t 0 1 0 1 0 := by
  obtain ⟨t, ht, hpc, hframe, hstats⟩ :=
    finishPc_completes .branch (if c then pc4 s.pc + boff imm else pc4 s.pc) s
  refine ⟨t, ht, ?_, hframe, counted_branch s t hstats⟩
  rw [hpc]
  split
  · exact branchTarget_toNat s.pc imm
  · rw [add_zero]
    exact pc4_toNat s.pc

/-- The cycle of a jalr that completes: the link, the frame, the counters and the check of the target (R175). -/
theorem finishLink_rType_completes (target : Word) (s : State) :
    Completes (finishLink .rType target s) fun t =>
      t.pc = target ∧ t.reg 31 = s.pc + 4#32 ∧ WritesOnly 31 s t ∧ Counted s t 1 0 0 0 0 ∧
      (s.raised = none → TargetChecked target t) := by
  obtain ⟨t, ht, rfl, hlink, hframe, hstats⟩ := finishLink_completes .rType target s
  exact ⟨t, ht, rfl, hlink, hframe, counted_rType s t hstats,
    fun hr => targetChecked_pc t (hframe.fixed.raised.trans hr)⟩

/-! ### The settings of JALR_LINK_READ (R14, R175) -/

section
variable (rs : Reg) (ign : BitVec 15) (s : State)

/-- Under FAULT the fault records the whole word, which is the encoding of the instruction (R205). -/
theorem exec_jalr_of_fault (hrs : rs = linkReg) (hread : s.cfg.jalrLinkRead = .fault) :
    exec (.jalr rs ign) s = .fault (.unpredictableJalr s.pc (encode (.jalr rs ign))) := by
  rw [exec_jalr_eq, if_pos ⟨hrs, hread⟩, raise]

/-- With rs other than 31, or under OLD, the target is read before the link is written. -/
theorem exec_jalr_of_ne_or_old (h : rs ≠ linkReg ∨ s.cfg.jalrLinkRead = .old) :
    exec (.jalr rs ign) s = finishLink .rType (s.reg rs) s := by
  rw [exec_jalr_eq]
  obtain hrs | hread := h
  · simp [hrs]
  · simp [hread]

/-- Under NEW the target is the link just written. -/
theorem exec_jalr_of_new (hrs : rs = linkReg) (hread : s.cfg.jalrLinkRead = .new) :
    exec (.jalr rs ign) s = finishLink .rType (pc4 s.pc) s := by
  rw [exec_jalr_eq]
  simp [hrs, hread]

end

end Sys2Proof.Machine

open Sys2Proof Sys2Proof.Machine

/-- Settles O21: both are the branch on a condition, beq's that the words are equal and bne's that they are not. -/
theorem branchesCompareAndMoveThePc : Obligations.BranchesCompareAndMoveThePc := by
  intro rs rt imm s
  refine ⟨decode_encode (.beq rs rt imm), decode_encode (.bne rs rt imm), rfl, rfl, ?_, ?_⟩
  · exact branch_completes (s.reg rs = s.reg rt) imm s
  · obtain ⟨t, ht, hpc, hrest⟩ := branch_completes (s.reg rs ≠ s.reg rt) imm s
    rw [ite_not] at hpc
    exact ⟨t, ht, hpc, hrest⟩

/-- Settles O22: j moves the pc and jal links too, both to the jump target of the fetch pc. -/
theorem jumpsGoToTheRegionTarget : Obligations.JumpsGoToTheRegionTarget := by
  intro index s
  have htarget := jtarget_toNat s.pc index
  refine ⟨decode_encode (.j index), decode_encode (.jal index), rfl, rfl, ?_, ?_⟩
  · obtain ⟨t, ht, hpc, hframe, hstats⟩ := finishPc_completes .jType (jtarget s.pc index) s
    exact ⟨t, ht, hpc ▸ htarget, hframe, counted_jType s t hstats⟩
  · obtain ⟨t, ht, hpc, hlink, hframe, hstats⟩ := finishLink_completes .jType (jtarget s.pc index) s
    exact ⟨t, ht, hpc ▸ htarget, hlink, hframe, counted_jType s t hstats⟩

/-- Settles O23: jr moves the pc to x[rs], and the next step of a machine without a fault checks its pc. -/
theorem jrLoadsThePc : Obligations.JrLoadsThePc := by
  intro rs ign s
  refine ⟨decode_encode (.jr rs ign), rfl, ?_⟩
  obtain ⟨t, ht, hpc, hframe, hstats⟩ := finishPc_completes .rType (s.reg rs) s
  refine ⟨t, ht, hpc, hframe, counted_rType s t hstats, fun hr => ?_⟩
  rw [← hpc]
  exact targetChecked_pc t (hframe.fixed.raised.trans hr)

/-- Settles O24: jalr faults, or it links and goes to the old x[rs] or to pc + 4. -/
theorem jalrLinksAndJumps : Obligations.JalrLinksAndJumps := by
  intro rs ign s
  refine ⟨decode_encode (.jalr rs ign), rfl, exec_jalr_of_fault rs ign s, fun h => ?_, fun hrs hread => ?_⟩
  · rw [exec_jalr_of_ne_or_old rs ign s h]
    exact finishLink_rType_completes (s.reg rs) s
  · rw [exec_jalr_of_new rs ign s hrs hread]
    obtain ⟨t, ht, hpc, hlink, hframe, hcount, -⟩ := finishLink_rType_completes (pc4 s.pc) s
    exact ⟨t, ht, hpc, hlink, hframe, hcount⟩

end

section
/-! The Invalid words (45_invalid.md R190): outside the tables the decoder rejects, and INVALID_POLICY alone decides the cycle. -/

namespace Sys2Proof.Machine

/-- A word outside the tables resolves to Invalid, so the decoder rejects it and its fetch runs its meaning as Invalid. -/
theorem Fetches.step_of_outsideTables {s : State} {w : Word} (hw : Fetches s w) (h : OutsideTables w) :
    step s = execInvalid w s := by
  obtain ⟨r, hd⟩ := decode_error_of_resolve_invalid w (resolve_of_outsideTables w h)
  rw [hw.step_eq, execWord_of_reject w s r hd]

/-! ### The settings of INVALID_POLICY (R15, R190) -/

theorem execInvalid_of_fault (w : Word) (s : State) (hpolicy : s.cfg.invalidPolicy = .fault) :
    execInvalid w s = .fault (.invalidInstruction s.pc w) := by
  rw [execInvalid, hpolicy, raise]

theorem execInvalid_of_nop (w : Word) (s : State) (hpolicy : s.cfg.invalidPolicy = .nop) :
    execInvalid w s = finishPc (invalidKind w) (pc4 s.pc) s := by
  rw [execInvalid, hpolicy]

/-! ### The class of an Invalid word (R97) -/

theorem invalidKind_of_opcode_zero (w : Word) (hop : opcodeOf w = 0#6) : invalidKind w = .rType := if_pos hop

theorem invalidKind_of_opcode_ne_zero (w : Word) (hop : opcodeOf w ≠ 0#6) : invalidKind w = .iType := if_neg hop

end Sys2Proof.Machine

open Sys2Proof Sys2Proof.Machine

/-- Settles O25: the step is the word's meaning as Invalid, which under NOP only moves the pc and counts the word by its
opcode, and under FAULT is the fault. -/
theorem invalidWordsDoNothingOrFault : Obligations.InvalidWordsDoNothingOrFault := by
  refine ⟨rfl, fun s w hw (hout : OutsideTables w) => ?_⟩
  rw [hw.step_of_outsideTables hout]
  refine ⟨fun hpolicy => ?_, execInvalid_of_fault w s⟩
  rw [execInvalid_of_nop w s hpolicy]
  obtain ⟨t, ht, hpc, hframe, hstats⟩ := finishPc_completes (invalidKind w) (pc4 s.pc) s
  refine ⟨t, ht, hpc, hframe, fun hop => ?_, fun hop => ?_⟩
  · exact counted_rType s t (invalidKind_of_opcode_zero w hop ▸ hstats)
  · exact counted_iType s t (invalidKind_of_opcode_ne_zero w hop ▸ hstats)

end

section
/-! What the host reads (60_exceptions.md R220, R221): the observation and the exit status, by the run status. -/

namespace Sys2Proof.Machine

/-! ### The observation by status (R221) -/

theorem observe_of_running (s : State) (h : s.status = .running) : s.observe = .none := by
  rw [State.observe, h]

theorem observe_of_halted (s : State) (h : s.status = .halted) :
    s.observe =
      .halted (s.reg 2#5) s.stats.cycles s.stats.rType s.stats.iType s.stats.jType s.stats.mem s.stats.branch := by
  rw [State.observe, h]

theorem observe_of_faulted (s : State) (f : Fault) (h : s.status = .faulted f) : s.observe = .faulted f := by
  rw [State.observe, h]

/-! ### The exit status by status (R220) -/

theorem exitStatus_of_running (s : State) (h : s.status = .running) : s.exitStatus = none := by
  rw [State.exitStatus, h]

theorem exitStatus_of_halted (s : State) (h : s.status = .halted) : s.exitStatus = some 0 := by
  rw [State.exitStatus, h]

/-- After a fault the exit status is some successor, whatever the free value of log 12 is. -/
theorem exitStatus_of_faulted (s : State) (f : Fault) (h : s.status = .faulted f) :
    ∃ n, n ≠ 0 ∧ s.exitStatus = some n := by
  rw [State.exitStatus, h]
  exact ⟨_, Nat.succ_ne_zero _, rfl⟩

end Sys2Proof.Machine

open Sys2Proof Sys2Proof.Machine

/-- Settles O45: the fault record and the pc fix the run status, and the status fixes both readings. -/
theorem theHostReadsOnlyEndedRuns : Obligations.TheHostReadsOnlyEndedRuns := by
  intro s
  refine ⟨fun hr hpc => ?_, fun f hf => ?_, fun hr hpc => ?_⟩
  · have hhalted : s.status = .halted := State.status_of_sentinel s hr hpc
    exact ⟨observe_of_halted s hhalted, exitStatus_of_halted s hhalted⟩
  · have hfaulted : s.status = .faulted f := State.status_of_raised s f hf
    exact ⟨observe_of_faulted s f hfaulted, exitStatus_of_faulted s f hfaulted⟩
  · have hrunning : s.status = .running := State.status_of_running s hr hpc
    exact ⟨observe_of_running s hrunning, exitStatus_of_running s hrunning⟩

end

section
/-! Hangs (70_reset_and_hazards.md R235): a control transfer to its own address completes with the same state but for the
counters, which no step reads (R31), and so every further step does the same. -/

namespace Sys2Proof.Machine

/-- A step that changes only the counters changes only them whatever they hold (R31). -/
theorem step_changes_only_stats (s : State) (st : Statistics) (h : step s = .next { s with stats := st })
    (before : Statistics) : ∃ after, step { s with stats := before } = .next { s with stats := after } := by
  have hagree := countersAreUnobservable s before
  rw [h] at hagree
  cases hstep : step { s with stats := before } with
  | next t =>
    rw [hstep] at hagree
    exact ⟨t.stats, congrArg _ hagree⟩
  | fault f =>
    rw [hstep] at hagree
    cases hagree
  | refused r =>
    rw [hstep] at hagree
    cases hagree

/-- A machine whose step changes only the counters takes that step for ever. -/
theorem runsForever_of_step_changes_only_stats (s : State) (st : Statistics)
    (h : step s = .next { s with stats := st }) : RunsForever s := by
  have hrun : ∀ (n : Nat) (before : Statistics), ∃ t, runSteps n { s with stats := before } = .next t := by
    intro n
    induction n with
    | zero => exact fun _ => ⟨_, runSteps_zero _⟩
    | succ n ih =>
      intro before
      obtain ⟨after, hstep⟩ := step_changes_only_stats s st h before
      rw [runSteps_of_next n _ _ hstep]
      exact ih after
  exact fun n => hrun n s.stats

/-- A fetched instruction that only moves the pc, and moves it to where it is, runs for ever. -/
theorem Fetches.runsForever_of_self_target {s : State} {i : Instr} (hw : Fetches s (encode i)) (k : Kind)
    (h : exec i s = finishPc k s.pc s) : RunsForever s :=
  runsForever_of_step_changes_only_stats s (s.stats.classify k).tick <|
    calc step s
      _ = execWord (encode i) s := hw.step_eq
      _ = exec i s := execWord_of_decode _ s i (decode_encode i)
      _ = finishPc k s.pc s := h

/-- The branch target of offset -1 is the branch itself (R170). -/
theorem branchTarget_minus_one (pc : Word) : pc4 pc + boff 0xFFFF#16 = pc := by
  have hboff : boff 0xFFFF#16 = -4#32 := by decide
  rw [pc4, hboff, add_neg_cancel_right]

theorem exec_beq_self (r : Reg) (s : State) : exec (.beq r r 0xFFFF#16) s = finishPc .branch s.pc s := by
  rw [exec, execBeq, if_pos rfl, branchTarget_minus_one]

theorem exec_j_self (index : Imm26) (s : State) (h : jtarget s.pc index = s.pc) :
    exec (.j index) s = finishPc .jType s.pc s := by
  rw [exec, execJ, h]

theorem exec_jr_self (rs : Reg) (ign : BitVec 15) (s : State) (h : s.reg rs = s.pc) :
    exec (.jr rs ign) s = finishPc .rType s.pc s := by
  rw [exec, execJr, h]

end Sys2Proof.Machine

open Sys2Proof Sys2Proof.Machine

/-- Settles O44: each of the three moves the pc to its own address, and nothing else. -/
theorem hangsRunForever : Obligations.HangsRunForever := by
  refine ⟨fun s hw => ?_, fun s index hw hself => ?_, fun s rs ign hw hself => ?_⟩
  · have hbeq : encode (.beq 0 0 0xFFFF#16) = 0x1000FFFF#32 := by decide
    rw [← hbeq] at hw
    exact hw.runsForever_of_self_target .branch (exec_beq_self 0 s)
  · exact Fetches.runsForever_of_self_target (i := .j index) hw .jType (exec_j_self index s hself)
  · exact Fetches.runsForever_of_self_target (i := .jr rs ign) hw .rType (exec_jr_self rs ign s hself)

end
